-- ==== Sys2Proof/Word.lean ====
section
/-! DEFINITION. The word types of the core (spec/00_scope.md R6, R8, R9): every value is unsigned.
Plain names only; every operation on them stands in Decode.lean or under Machine/. -/

namespace Sys2Proof

/-- A 16-bit value: an opcode, `pc`, `I`, a stack entry (R6, R30). -/
abbrev Word := BitVec 16

/-- An 8-bit value: a general register, a timer, a memory cell, `NN` (R6, R8). -/
abbrev Byte := BitVec 8

/-- A 12-bit address field `NNN` (R8). -/
abbrev Addr := BitVec 12

/-- A 4-bit value: a register number `X` or `Y`, a row count `N`, a key number (R8, R21, R35). -/
abbrev Nibble := BitVec 4

end Sys2Proof
end

