-- ==== Sys2Proof/Syntax.lean ====
section
/-! DEFINITION. The instructions: one constructor per row of spec/opcode_table.json, with the operand
fields of spec/30_encoding.md R71 to R73; and the decoder's 35 kinds, named by pattern (R74). -/

namespace Sys2Proof

/-- An instruction. `x` and `y` are register numbers, `nn` and `nnn` immediates, `n` a row count. -/
inductive Instr where
  /-- `00E0` CLS. -/
  | cls
  /-- `00EE` RET. -/
  | ret
  /-- `0NNN` SYS nnn. -/
  | sys (nnn : Addr)
  /-- `1NNN` JP nnn. -/
  | jp (nnn : Addr)
  /-- `2NNN` CALL nnn. -/
  | call (nnn : Addr)
  /-- `3XNN` SE Vx, nn. -/
  | seImm (x : Nibble) (nn : Byte)
  /-- `4XNN` SNE Vx, nn. -/
  | sneImm (x : Nibble) (nn : Byte)
  /-- `5XY0` SE Vx, Vy. -/
  | seReg (x y : Nibble)
  /-- `6XNN` LD Vx, nn. -/
  | ldImm (x : Nibble) (nn : Byte)
  /-- `7XNN` ADD Vx, nn. -/
  | addImm (x : Nibble) (nn : Byte)
  /-- `8XY0` LD Vx, Vy. -/
  | ldReg (x y : Nibble)
  /-- `8XY1` OR Vx, Vy. -/
  | orReg (x y : Nibble)
  /-- `8XY2` AND Vx, Vy. -/
  | andReg (x y : Nibble)
  /-- `8XY3` XOR Vx, Vy. -/
  | xorReg (x y : Nibble)
  /-- `8XY4` ADD Vx, Vy. -/
  | addReg (x y : Nibble)
  /-- `8XY5` SUB Vx, Vy. -/
  | subReg (x y : Nibble)
  /-- `8XY6` SHR Vx, Vy. -/
  | shrReg (x y : Nibble)
  /-- `8XY7` SUBN Vx, Vy. -/
  | subnReg (x y : Nibble)
  /-- `8XYE` SHL Vx, Vy. -/
  | shlReg (x y : Nibble)
  /-- `9XY0` SNE Vx, Vy. -/
  | sneReg (x y : Nibble)
  /-- `ANNN` LD I, nnn. -/
  | ldI (nnn : Addr)
  /-- `BNNN` JP V0, nnn. -/
  | jpV0 (nnn : Addr)
  /-- `CXNN` RND Vx, nn. -/
  | rnd (x : Nibble) (nn : Byte)
  /-- `DXYN` DRW Vx, Vy, n. -/
  | drw (x y n : Nibble)
  /-- `EX9E` SKP Vx. -/
  | skp (x : Nibble)
  /-- `EXA1` SKNP Vx. -/
  | sknp (x : Nibble)
  /-- `FX07` LD Vx, DT. -/
  | ldVxDT (x : Nibble)
  /-- `FX0A` LD Vx, K. -/
  | ldVxK (x : Nibble)
  /-- `FX15` LD DT, Vx. -/
  | ldDTVx (x : Nibble)
  /-- `FX18` LD ST, Vx. -/
  | ldSTVx (x : Nibble)
  /-- `FX1E` ADD I, Vx. -/
  | addI (x : Nibble)
  /-- `FX29` LD F, Vx. -/
  | ldF (x : Nibble)
  /-- `FX33` LD B, Vx. -/
  | ldB (x : Nibble)
  /-- `FX55` LD [I], Vx. -/
  | storeRegs (x : Nibble)
  /-- `FX65` LD Vx, [I]. -/
  | loadRegs (x : Nibble)
  deriving DecidableEq, Repr

/-- The 35 named results of the decoder, each named by its pattern (R74). -/
inductive Kind where
  | k00E0 | k00EE | k0NNN | k1NNN | k2NNN | k3XNN | k4XNN | k5XY0 | k6XNN | k7XNN
  | k8XY0 | k8XY1 | k8XY2 | k8XY3 | k8XY4 | k8XY5 | k8XY6 | k8XY7 | k8XYE | k9XY0
  | kANNN | kBNNN | kCXNN | kDXYN | kEX9E | kEXA1 | kFX07 | kFX0A | kFX15 | kFX18
  | kFX1E | kFX29 | kFX33 | kFX55 | kFX65
  deriving DecidableEq, Repr

/-- What the decoder makes of a word (R74): an instruction of one of the 35 kinds, or `Unknown`,
rejected by name with the word itself. -/
inductive Decoded where
  | instr (i : Instr)
  | unknown (op : Word)
  deriving DecidableEq, Repr

end Sys2Proof
end

