-- ==== Sys2Proof/WellFormed.lean ====
section
/-! DEFINITION. Which instructions are the reading of some word. Every field has exactly the width its
encoding gives it (spec/30_encoding.md R71 to R73, "no immediate value is illegal"), so one check is
left: the two fixed words of family 0 are `00E0` and `00EE`, never `0NNN` (R77). -/

namespace Sys2Proof

/-- `0NNN` does not stand for 0x00E0 or 0x00EE (R77); every other operand is legal. Log entry 11. -/
abbrev WellFormed (i : Instr) : Prop :=
  i ≠ .sys 0x0E0#12 ∧ i ≠ .sys 0x0EE#12

end Sys2Proof
end

