-- ==== Sys2Proof/Decode.lean ====
section
/-! DEFINITION. The decoder, total on every word and on any bytes (spec/30_encoding.md R70 to R84), the
encoder, the match and mask table (R82), byte order (spec/20_memory.md R55), and assembler text (R85). -/

namespace Sys2Proof

/-! ### Fields of an opcode (spec/00_scope.md R8) -/

/-- `op[15:12]`, the major opcode (R71). -/
def fieldMajor (op : Word) : Nibble := op.extractLsb' 12 4

/-- `X = op[11:8]`. -/
def fieldX (op : Word) : Nibble := op.extractLsb' 8 4

/-- `Y = op[7:4]`. -/
def fieldY (op : Word) : Nibble := op.extractLsb' 4 4

/-- `N = op[3:0]`. -/
def fieldN (op : Word) : Nibble := op.extractLsb' 0 4

/-- `NN = op[7:0]`. -/
def fieldNN (op : Word) : Byte := op.extractLsb' 0 8

/-- `NNN = op[11:0]`. -/
def fieldNNN (op : Word) : Addr := op.extractLsb' 0 12

/-! ### The decoder -/

/-- Family 0: two fixed words, every other one is `0NNN` (R77). -/
def decodeFamily0 (op : Word) : Decoded :=
  if op = 0x00E0#16 then .instr .cls
  else if op = 0x00EE#16 then .instr .ret
  else .instr (.sys (fieldNNN op))

/-- Family 5: `5XY0`, else `Unknown` (R78). -/
def decodeFamily5 (op : Word) : Decoded :=
  if fieldN op = 0x0#4 then .instr (.seReg (fieldX op) (fieldY op)) else .unknown op

/-- Family 8, by the last nibble (R79). -/
def decodeFamily8 (op : Word) : Decoded :=
  match (fieldN op).toNat with
  | 0x0 => .instr (.ldReg (fieldX op) (fieldY op))
  | 0x1 => .instr (.orReg (fieldX op) (fieldY op))
  | 0x2 => .instr (.andReg (fieldX op) (fieldY op))
  | 0x3 => .instr (.xorReg (fieldX op) (fieldY op))
  | 0x4 => .instr (.addReg (fieldX op) (fieldY op))
  | 0x5 => .instr (.subReg (fieldX op) (fieldY op))
  | 0x6 => .instr (.shrReg (fieldX op) (fieldY op))
  | 0x7 => .instr (.subnReg (fieldX op) (fieldY op))
  | 0xE => .instr (.shlReg (fieldX op) (fieldY op))
  | _ => .unknown op

/-- Family 9: `9XY0`, else `Unknown` (R78). -/
def decodeFamily9 (op : Word) : Decoded :=
  if fieldN op = 0x0#4 then .instr (.sneReg (fieldX op) (fieldY op)) else .unknown op

/-- Family E, by the low byte (R80). -/
def decodeFamilyE (op : Word) : Decoded :=
  match (fieldNN op).toNat with
  | 0x9E => .instr (.skp (fieldX op))
  | 0xA1 => .instr (.sknp (fieldX op))
  | _ => .unknown op

/-- Family F, by the low byte (R81). -/
def decodeFamilyF (op : Word) : Decoded :=
  match (fieldNN op).toNat with
  | 0x07 => .instr (.ldVxDT (fieldX op))
  | 0x0A => .instr (.ldVxK (fieldX op))
  | 0x15 => .instr (.ldDTVx (fieldX op))
  | 0x18 => .instr (.ldSTVx (fieldX op))
  | 0x1E => .instr (.addI (fieldX op))
  | 0x29 => .instr (.ldF (fieldX op))
  | 0x33 => .instr (.ldB (fieldX op))
  | 0x55 => .instr (.storeRegs (fieldX op))
  | 0x65 => .instr (.loadRegs (fieldX op))
  | _ => .unknown op

/-- `Decode`: the first level goes by the major opcode (R75, R76). The last arm is 0xF, since a nibble
is at most 15. -/
def decode (op : Word) : Decoded :=
  match (fieldMajor op).toNat with
  | 0x0 => decodeFamily0 op
  | 0x1 => .instr (.jp (fieldNNN op))
  | 0x2 => .instr (.call (fieldNNN op))
  | 0x3 => .instr (.seImm (fieldX op) (fieldNN op))
  | 0x4 => .instr (.sneImm (fieldX op) (fieldNN op))
  | 0x5 => decodeFamily5 op
  | 0x6 => .instr (.ldImm (fieldX op) (fieldNN op))
  | 0x7 => .instr (.addImm (fieldX op) (fieldNN op))
  | 0x8 => decodeFamily8 op
  | 0x9 => decodeFamily9 op
  | 0xA => .instr (.ldI (fieldNNN op))
  | 0xB => .instr (.jpV0 (fieldNNN op))
  | 0xC => .instr (.rnd (fieldX op) (fieldNN op))
  | 0xD => .instr (.drw (fieldX op) (fieldY op) (fieldN op))
  | 0xE => decodeFamilyE op
  | _ => decodeFamilyF op

/-! ### Bytes (spec/20_memory.md R55): the byte at the lower address is the high byte -/

/-- The opcode of two bytes in fetch order. -/
def opcodeOfBytes (hi lo : Byte) : Word := hi ++ lo

/-- The byte of an opcode at the lower address. -/
def highByte (op : Word) : Byte := op.extractLsb' 8 8

/-- The byte of an opcode at the higher address. -/
def lowByte (op : Word) : Byte := op.extractLsb' 0 8

/-- Decoding from a list of bytes: one instruction takes exactly two (R70); fewer give nothing. -/
def decodeBytes : List Byte → Option (Decoded × List Byte)
  | hi :: lo :: rest => some (decode (opcodeOfBytes hi lo), rest)
  | _ => none

/-! ### The encoder: the same formats, read the other way (R71) -/

/-- Format `NNN`. -/
def formNNN (major : Nibble) (nnn : Addr) : Word := major ++ nnn

/-- Formats `XNN` and `XFF`. -/
def formXNN (major x : Nibble) (nn : Byte) : Word := major ++ x ++ nn

/-- Formats `XYF` and `XYN`. -/
def formXYN (major x y n : Nibble) : Word := major ++ x ++ y ++ n

/-- The word of an instruction. -/
def encode : Instr → Word
  | .cls => 0x00E0#16
  | .ret => 0x00EE#16
  | .sys nnn => formNNN 0x0#4 nnn
  | .jp nnn => formNNN 0x1#4 nnn
  | .call nnn => formNNN 0x2#4 nnn
  | .seImm x nn => formXNN 0x3#4 x nn
  | .sneImm x nn => formXNN 0x4#4 x nn
  | .seReg x y => formXYN 0x5#4 x y 0x0#4
  | .ldImm x nn => formXNN 0x6#4 x nn
  | .addImm x nn => formXNN 0x7#4 x nn
  | .ldReg x y => formXYN 0x8#4 x y 0x0#4
  | .orReg x y => formXYN 0x8#4 x y 0x1#4
  | .andReg x y => formXYN 0x8#4 x y 0x2#4
  | .xorReg x y => formXYN 0x8#4 x y 0x3#4
  | .addReg x y => formXYN 0x8#4 x y 0x4#4
  | .subReg x y => formXYN 0x8#4 x y 0x5#4
  | .shrReg x y => formXYN 0x8#4 x y 0x6#4
  | .subnReg x y => formXYN 0x8#4 x y 0x7#4
  | .shlReg x y => formXYN 0x8#4 x y 0xE#4
  | .sneReg x y => formXYN 0x9#4 x y 0x0#4
  | .ldI nnn => formNNN 0xA#4 nnn
  | .jpV0 nnn => formNNN 0xB#4 nnn
  | .rnd x nn => formXNN 0xC#4 x nn
  | .drw x y n => formXYN 0xD#4 x y n
  | .skp x => formXNN 0xE#4 x 0x9E#8
  | .sknp x => formXNN 0xE#4 x 0xA1#8
  | .ldVxDT x => formXNN 0xF#4 x 0x07#8
  | .ldVxK x => formXNN 0xF#4 x 0x0A#8
  | .ldDTVx x => formXNN 0xF#4 x 0x15#8
  | .ldSTVx x => formXNN 0xF#4 x 0x18#8
  | .addI x => formXNN 0xF#4 x 0x1E#8
  | .ldF x => formXNN 0xF#4 x 0x29#8
  | .ldB x => formXNN 0xF#4 x 0x33#8
  | .storeRegs x => formXNN 0xF#4 x 0x55#8
  | .loadRegs x => formXNN 0xF#4 x 0x65#8

/-- The two bytes of an instruction as memory holds them. -/
def encodeBytes (i : Instr) : List Byte := [highByte (encode i), lowByte (encode i)]

/-! ### The opcode table (R82) -/

/-- The kind of an instruction. -/
def kindOfInstr : Instr → Kind
  | .cls => .k00E0
  | .ret => .k00EE
  | .sys _ => .k0NNN
  | .jp _ => .k1NNN
  | .call _ => .k2NNN
  | .seImm _ _ => .k3XNN
  | .sneImm _ _ => .k4XNN
  | .seReg _ _ => .k5XY0
  | .ldImm _ _ => .k6XNN
  | .addImm _ _ => .k7XNN
  | .ldReg _ _ => .k8XY0
  | .orReg _ _ => .k8XY1
  | .andReg _ _ => .k8XY2
  | .xorReg _ _ => .k8XY3
  | .addReg _ _ => .k8XY4
  | .subReg _ _ => .k8XY5
  | .shrReg _ _ => .k8XY6
  | .subnReg _ _ => .k8XY7
  | .shlReg _ _ => .k8XYE
  | .sneReg _ _ => .k9XY0
  | .ldI _ => .kANNN
  | .jpV0 _ => .kBNNN
  | .rnd _ _ => .kCXNN
  | .drw _ _ _ => .kDXYN
  | .skp _ => .kEX9E
  | .sknp _ => .kEXA1
  | .ldVxDT _ => .kFX07
  | .ldVxK _ => .kFX0A
  | .ldDTVx _ => .kFX15
  | .ldSTVx _ => .kFX18
  | .addI _ => .kFX1E
  | .ldF _ => .kFX29
  | .ldB _ => .kFX33
  | .storeRegs _ => .kFX55
  | .loadRegs _ => .kFX65

/-- The kind the decoder gives a word; `none` is `Unknown` (R74, R75). -/
def decodeKind (op : Word) : Option Kind :=
  match decode op with
  | .instr i => some (kindOfInstr i)
  | .unknown _ => none

/-- The mask of a kind (R82). -/
def kindMask : Kind → Word
  | .k00E0 | .k00EE => 0xFFFF#16
  | .k0NNN | .k1NNN | .k2NNN | .k3XNN | .k4XNN | .k6XNN | .k7XNN => 0xF000#16
  | .kANNN | .kBNNN | .kCXNN | .kDXYN => 0xF000#16
  | .k5XY0 | .k9XY0 => 0xF00F#16
  | .k8XY0 | .k8XY1 | .k8XY2 | .k8XY3 | .k8XY4 | .k8XY5 | .k8XY6 | .k8XY7 | .k8XYE => 0xF00F#16
  | .kEX9E | .kEXA1 => 0xF0FF#16
  | .kFX07 | .kFX0A | .kFX15 | .kFX18 | .kFX1E | .kFX29 | .kFX33 | .kFX55 | .kFX65 => 0xF0FF#16

/-- The match word of a kind (R82). -/
def kindMatch : Kind → Word
  | .k00E0 => 0x00E0#16
  | .k00EE => 0x00EE#16
  | .k0NNN => 0x0000#16
  | .k1NNN => 0x1000#16
  | .k2NNN => 0x2000#16
  | .k3XNN => 0x3000#16
  | .k4XNN => 0x4000#16
  | .k5XY0 => 0x5000#16
  | .k6XNN => 0x6000#16
  | .k7XNN => 0x7000#16
  | .k8XY0 => 0x8000#16
  | .k8XY1 => 0x8001#16
  | .k8XY2 => 0x8002#16
  | .k8XY3 => 0x8003#16
  | .k8XY4 => 0x8004#16
  | .k8XY5 => 0x8005#16
  | .k8XY6 => 0x8006#16
  | .k8XY7 => 0x8007#16
  | .k8XYE => 0x800E#16
  | .k9XY0 => 0x9000#16
  | .kANNN => 0xA000#16
  | .kBNNN => 0xB000#16
  | .kCXNN => 0xC000#16
  | .kDXYN => 0xD000#16
  | .kEX9E => 0xE09E#16
  | .kEXA1 => 0xE0A1#16
  | .kFX07 => 0xF007#16
  | .kFX0A => 0xF00A#16
  | .kFX15 => 0xF015#16
  | .kFX18 => 0xF018#16
  | .kFX1E => 0xF01E#16
  | .kFX29 => 0xF029#16
  | .kFX33 => 0xF033#16
  | .kFX55 => 0xF055#16
  | .kFX65 => 0xF065#16

/-- `op & mask = match` (R82). -/
def matchesRow (k : Kind) (op : Word) : Bool := op &&& kindMask k == kindMatch k

/-- The table's selection of a kind: the row matches and, for `0NNN`, the word is neither of the two
fixed words of family 0, which "are excluded first" (R82). -/
def selects (k : Kind) (op : Word) : Bool :=
  matchesRow k op && (k != .k0NNN || (op != 0x00E0#16 && op != 0x00EE#16))

/-! ### The opcode table's numbering of bits -/

/-- The one word of an instruction whose lowest `nbits` bits are `w` and whose other bits are 0. -/
def tableWord (nbits w : Nat) : Word := BitVec.ofNat 16 (w % 2 ^ nbits)

/-- The instruction the decoder reads from the bytes, laid out as memory holds them, of the word that
spec/opcode_table.json numbers `w`; `none` for `Unknown`. -/
def decodeTableWord (nbits w : Nat) : Option Instr :=
  match decodeBytes [highByte (tableWord nbits w), lowByte (tableWord nbits w)] with
  | some (.instr i, _) => some i
  | _ => none

/-! ### Assembler text (R85), without normative weight -/

/-- One hexadecimal digit. -/
def hexDigit (n : Nat) : String :=
  ["0", "1", "2", "3", "4", "5", "6", "7", "8", "9", "A", "B", "C", "D", "E", "F"].getD (n % 16) ""

/-- A number of `digits` hexadecimal digits. -/
def hexDigits : Nat → Nat → String
  | 0, _ => ""
  | k + 1, n => hexDigits k (n / 16) ++ hexDigit n

/-- A number in hexadecimal with the prefix 0x (R85). -/
def hexText (digits n : Nat) : String := "0x" ++ hexDigits digits n

/-- `Vx`: `V0` to `VF` (R85). -/
def regText (x : Nibble) : String := "V" ++ hexDigit x.toNat

/-- The mnemonic and operands of an instruction (R85). -/
def instrText : Instr → String
  | .cls => "CLS"
  | .ret => "RET"
  | .sys nnn => "SYS " ++ hexText 3 nnn.toNat
  | .jp nnn => "JP " ++ hexText 3 nnn.toNat
  | .call nnn => "CALL " ++ hexText 3 nnn.toNat
  | .seImm x nn => "SE " ++ regText x ++ ", " ++ hexText 2 nn.toNat
  | .sneImm x nn => "SNE " ++ regText x ++ ", " ++ hexText 2 nn.toNat
  | .seReg x y => "SE " ++ regText x ++ ", " ++ regText y
  | .ldImm x nn => "LD " ++ regText x ++ ", " ++ hexText 2 nn.toNat
  | .addImm x nn => "ADD " ++ regText x ++ ", " ++ hexText 2 nn.toNat
  | .ldReg x y => "LD " ++ regText x ++ ", " ++ regText y
  | .orReg x y => "OR " ++ regText x ++ ", " ++ regText y
  | .andReg x y => "AND " ++ regText x ++ ", " ++ regText y
  | .xorReg x y => "XOR " ++ regText x ++ ", " ++ regText y
  | .addReg x y => "ADD " ++ regText x ++ ", " ++ regText y
  | .subReg x y => "SUB " ++ regText x ++ ", " ++ regText y
  | .shrReg x y => "SHR " ++ regText x ++ ", " ++ regText y
  | .subnReg x y => "SUBN " ++ regText x ++ ", " ++ regText y
  | .shlReg x y => "SHL " ++ regText x ++ ", " ++ regText y
  | .sneReg x y => "SNE " ++ regText x ++ ", " ++ regText y
  | .ldI nnn => "LD I, " ++ hexText 3 nnn.toNat
  | .jpV0 nnn => "JP V0, " ++ hexText 3 nnn.toNat
  | .rnd x nn => "RND " ++ regText x ++ ", " ++ hexText 2 nn.toNat
  | .drw x y n => "DRW " ++ regText x ++ ", " ++ regText y ++ ", " ++ hexText 1 n.toNat
  | .skp x => "SKP " ++ regText x
  | .sknp x => "SKNP " ++ regText x
  | .ldVxDT x => "LD " ++ regText x ++ ", DT"
  | .ldVxK x => "LD " ++ regText x ++ ", K"
  | .ldDTVx x => "LD DT, " ++ regText x
  | .ldSTVx x => "LD ST, " ++ regText x
  | .addI x => "ADD I, " ++ regText x
  | .ldF x => "LD F, " ++ regText x
  | .ldB x => "LD B, " ++ regText x
  | .storeRegs x => "LD [I], " ++ regText x
  | .loadRegs x => "LD " ++ regText x ++ ", [I]"

/-- The text of any word: an instruction's, or the raw word of an `Unknown` one (R85). -/
def asmText (op : Word) : String :=
  match decode op with
  | .instr i => instrText i
  | .unknown w => "DW " ++ hexText 4 w.toNat

end Sys2Proof
end

