-- ==== Sys2Proof/Config.lean ====
section
/-! DEFINITION. What the spec leaves to one implementation (spec/00_scope.md R7) and the free input of
`CXNN` (R39): constants without a body, so a statement about them holds for every admissible value. -/

namespace Sys2Proof

/-- Where the font table may begin: `FONT_BASE + 80 <= 0x200` (R7), so `FONT_BASE` is below 433. -/
abbrev FontBase := Fin 433

/-- The sixteen glyphs of five bytes, glyph 0 first (R6, R60). -/
abbrev FontData := Vector Byte 80

/-- A maximum stack depth: `none` (unbounded) or a positive number (R31). -/
abbrev StackLimit := Option { n : Nat // 0 < n }

/-- `FONT_BASE` (R7, decision D2): the spec gives no value. Log entry 1. -/
opaque Config.fontBase : FontBase

/-- `FONT_DATA` (R7, decision D3): the spec gives no bytes. Log entry 2. -/
opaque Config.fontData : FontData

/-- `STACK_MAX` (R7, R31, decision D9). Log entry 3. -/
opaque Config.stackMax : StackLimit

/-- `PEEK_SENTINEL` (R7, R244, decision D26). Log entry 5. -/
opaque Config.peekSentinel : Word

/-- `TIMER_HZ` (R7, decision D23): a parameter that no rule reads. Log entry 5. -/
opaque Config.timerHz : Nat

/-- `Rand()` (R39, decision D14): the byte of the `n`-th draw, a FREE VALUE: nothing constrains it.
Log entry 4. -/
opaque Config.randByte : Nat → Byte

end Sys2Proof
end

