-- ==== Sys2Proof/Machine/State.lean ====
section
/-! DEFINITION. The architectural state (spec/10_state.md R20: these ten items and nothing else, beside
the model's own draw counter), the faults and refusals, and the state after reset (R41). Plain data. -/

namespace Sys2Proof.Machine

/-- The sixteen general registers; number 15 is `VF` (R21, R22). -/
abbrev Regs := Vector Byte 16

/-- The display: 2048 cells, row-major, `true` meaning lit (R33). -/
abbrev Display := Vector Bool 2048

/-- The sixteen key states, `true` meaning down (R35). -/
abbrev Keys := Vector Bool 16

/-- Memory (R32): the cells that differ from their reset byte, addresses strictly rising. What an
unlisted address reads as is `resetByte`, and the form is `Memory.wf`, both in Machine/Memory.lean. -/
abbrev Memory := List Host.Cell

/-- The call stack (R30), the TOP FIRST. Log entry 6. -/
abbrev Stack := List Word

/-- The machine's state (R20). -/
@[ext]
structure State where
  /-- `memory`, 4096 bytes (R32). -/
  memory : Memory
  /-- `V[0]` to `V[15]` (R21). -/
  v : Regs
  /-- The index register `I` (R24). -/
  i : Word
  /-- The program counter (R26). -/
  pc : Word
  /-- The call stack (R30). -/
  stack : Stack
  /-- The display (R33). -/
  display : Display
  /-- The delay timer (R34). -/
  delay : Byte
  /-- The sound timer (R34). -/
  sound : Byte
  /-- The key states (R35). -/
  keys : Keys
  /-- `current_key`: a key number or none (R36). -/
  currentKey : Option Nibble
  /-- `bad_opcode` (R37). -/
  badOpcode : Bool
  /-- The MODEL's own field: how many free bytes `CXNN` has drawn so far (R39). Log entry 4. -/
  draws : Nat
  deriving DecidableEq, Repr

/-- Why a command could not be performed (spec/60_exceptions.md R222). Each is the spec's own fault. -/
inductive Fault where
  /-- Raised by `00EE` on an empty stack (R224). Safe: the spec gives this fault. -/
  | stackUnderflow
  /-- Raised by Fetch and Step when `pc` is above 0x0FFE, with that `pc` (R225). Safe: the spec gives
  this fault. -/
  | fetchOutOfRange (pc : Word)
  /-- Raised by `2NNN` when the depth equals a finite `STACK_MAX` (R226). Safe: the spec gives this
  fault. -/
  | stackOverflow
  deriving DecidableEq, Repr

/-- Why the model gives no meaning. -/
inductive Refusal where
  /-- Raised by an arm of `exec` for an instruction without a meaning yet; no arm does so now. Safe. -/
  | notModelled (mnemonic : String)
  deriving DecidableEq, Repr

/-- The state after reset (R41, spec/70_reset_and_hazards.md R260). Memory lists nothing: every cell
holds its reset byte. `draws` is the model's own (log entry 4). -/
def State.reset : State where
  memory := []
  v := Vector.replicate 16 0x00#8
  i := 0x0000#16
  pc := 0x0200#16
  stack := []
  display := Vector.replicate 2048 false
  delay := 0x00#8
  sound := 0x00#8
  keys := Vector.replicate 16 false
  currentKey := none
  badOpcode := false
  draws := 0

end Sys2Proof.Machine
end

