-- ==== Sys2Proof/Machine/Memory.lean ====
section
/-! DEFINITION. The `memory` store (spec/20_memory.md R50 to R62): reset contents, the two access
primitives, byte sequences, and the canonical form. -/

namespace Sys2Proof.Machine

/-- The size of memory in bytes (spec/00_scope.md R6). -/
def memSize : Nat := 4096

/-- Where a program is loaded and entered (R6, R60). -/
def loadAddress : Nat := 0x200

/-- Byte `a` below 0x200 at reset for a given font base and font: the glyph bytes in the font table,
zero elsewhere (R60, spec/10_state.md R41). -/
def fontAreaByte (base : FontBase) (data : FontData) (a : Nat) : Byte :=
  if h : base.val ≤ a ∧ a < base.val + 80 then data[a - base.val]'(by omega) else 0x00#8

/-- What an address reads as when memory does not list it: its byte at reset (R41). The font table
lies below 0x200 (R7). -/
def resetByte (a : Nat) : Byte :=
  if loadAddress ≤ a then 0x00#8 else fontAreaByte Config.fontBase Config.fontData a

/-- The byte at an address below 4096. -/
def lookupCell : Memory → Nat → Byte
  | [], a => resetByte a
  | (k, b) :: m, a => if k = a then b else lookupCell m a

/-- Puts a cell before `m`, unless it holds its reset byte. -/
def listCell (a : Nat) (b : Byte) (m : Memory) : Memory :=
  if b = resetByte a then m else (a, b) :: m

/-- Replaces the byte at an address below 4096, keeping the canonical form. -/
def putCell (a : Nat) (b : Byte) : Memory → Memory
  | [] => listCell a b []
  | (k, c) :: m =>
    if a < k then listCell a b ((k, c) :: m)
    else if a = k then listCell a b m
    else (k, c) :: putCell a b m

/-- `MemRead(addr, 1)`: any address, modulo 4096, no fault (R52). -/
def memRead (m : Memory) (addr : Nat) : Byte := lookupCell m (addr % memSize)

/-- `MemWrite(addr, 1, v)`: any address, modulo 4096, no fault, no protection (R53). -/
def memWrite (addr : Nat) (b : Byte) (m : Memory) : Memory := putCell (addr % memSize) b m

/-- Stores bytes one at a time at ascending addresses (R51, R59). -/
def memWriteBytes : Nat → List Byte → Memory → Memory
  | _, [], m => m
  | addr, b :: bs, m => memWriteBytes (addr + 1) bs (memWrite addr b m)

/-- The opcode at `addr` and `addr + 1`, big-endian (R55). -/
def memReadOpcode (m : Memory) (addr : Nat) : Word :=
  opcodeOfBytes (memRead m addr) (memRead m (addr + 1))

/-- Stores an opcode big-endian (R55). -/
def memWriteOpcode (addr : Nat) (op : Word) (m : Memory) : Memory :=
  memWriteBytes addr [highByte op, lowByte op] m

/-- The canonical form: addresses strictly rising and below 4096, and no cell that holds its reset
byte. Equal memories are equal lists. -/
abbrev Memory.wf (m : Memory) : Prop :=
  m.Pairwise (fun c d => c.1 < d.1) ∧ ∀ c ∈ m, c.1 < memSize ∧ c.2 ≠ resetByte c.1

end Sys2Proof.Machine
end

