-- ==== Sys2Proof/Machine/Ops.lean ====
section
/-! DEFINITION. The named operations over the state: one update per register of spec/10_state.md, the
call stack, and raising a fault. Every write of a register goes through its one operation here. -/

namespace Sys2Proof.Machine

/-- What a handler answers. -/
abbrev Result := Host.Outcome State Fault Refusal

/-! ### General registers (R21) -/

/-- Register `x` of a register file. -/
def getReg (v : Regs) (x : Nibble) : Byte := v[x.toNat]'x.isLt

/-- A register file with register `x` replaced. -/
def setReg (x : Nibble) (b : Byte) (v : Regs) : Regs := v.set x.toNat b x.isLt

/-- `V[x]` (spec/00_scope.md R10). -/
def readV (s : State) (x : Nibble) : Byte := getReg s.v x

/-- `V[x] <- b`. -/
def writeV (x : Nibble) (b : Byte) (s : State) : State := { s with v := setReg x b s.v }

/-- The whole register file replaced (`FX65`). -/
def writeRegs (v : Regs) (s : State) : State := { s with v := v }

/-! ### The other registers -/

/-- `I <- a & 0x0FFF`: every write of `I` is masked to 12 bits (R25). -/
def writeI (a : Word) (s : State) : State := { s with i := a &&& 0x0FFF#16 }

/-- `pc <- a`, all 16 bits, no check (R26, R28, spec/41_control_flow.md R128). -/
def writePc (a : Word) (s : State) : State := { s with pc := a }

/-- `stack <- st`. -/
def writeStack (st : Stack) (s : State) : State := { s with stack := st }

/-- `display <- d`. -/
def writeDisplay (d : Display) (s : State) : State := { s with display := d }

/-- `delay <- b` (R34). -/
def writeDelay (b : Byte) (s : State) : State := { s with delay := b }

/-- `sound <- b` (R34). -/
def writeSound (b : Byte) (s : State) : State := { s with sound := b }

/-- `bad_opcode <- b` (R37). -/
def writeBadOpcode (b : Bool) (s : State) : State := { s with badOpcode := b }

/-- `memory <- m`. -/
def writeMemory (m : Memory) (s : State) : State := { s with memory := m }

/-- `keys <- ks` (R35). -/
def writeKeys (ks : Keys) (s : State) : State := { s with keys := ks }

/-- `current_key <- k` (R36). -/
def writeCurrentKey (k : Option Nibble) (s : State) : State := { s with currentKey := k }

/-- One more free byte drawn: the model's own counter (R39, log entry 4). -/
def advanceDraws (s : State) : State := { s with draws := s.draws + 1 }

/-! ### Keys (R35) -/

/-- Key state `k`. -/
def getKey (ks : Keys) (k : Nibble) : Bool := ks[k.toNat]'k.isLt

/-- Key state `k` replaced. -/
def setKey (k : Nibble) (b : Bool) (ks : Keys) : Keys := ks.set k.toNat b k.isLt

/-! ### The call stack (R30, R31) -/

/-- `Depth() = STACK_MAX` for a finite limit. An empty stack is never full, since a finite limit is
positive (R31). -/
def stackFull (limit : StackLimit) : Stack → Bool
  | [] => false
  | _ :: st =>
    match limit with
    | none => false
    | some n => n.val == st.length + 1

/-! ### Faults (spec/60_exceptions.md R222, R230, R231)

This machine has no trap entry and no trap return: a fault saves nothing, switches no mode and
transfers control nowhere. It is the outcome of the command, and the host decides what follows. -/

/-- `raise F`: ends the handler with a fault and no state change of its own (R222). What the command as
a whole leaves behind is in Machine/Commands.lean. -/
def raise (f : Fault) : Result := .fault f

end Sys2Proof.Machine
end

