-- ==== Sys2Proof/Machine/Flags.lean ====
section
/-! DEFINITION. What is written to `VF` as a flag (spec/42_register_alu.md R161, spec/10_state.md R22,
R23). A flag is the byte 0x00 or 0x01. -/

namespace Sys2Proof.Machine

/-- `VF`, the flag register (spec/00_scope.md R14). -/
def flagReg : Nibble := 0xF#4

/-- A flag as the byte written to `VF` (R22). -/
def flagByte (b : Bool) : Byte := if b then 0x01#8 else 0x00#8

/-- The carry of `a + b`: the unwrapped sum exceeds 255 (R161, R146). -/
def carryOf (a b : Byte) : Bool := decide (255 < a.toNat + b.toNat)

/-- The complement of the borrow of `a - b`: a borrow occurs exactly when `b > a` (R161). -/
def notBorrowOf (a b : Byte) : Bool := !decide (a.toNat < b.toNat)

/-- The bit a right shift puts out: bit 0 (R148). -/
def lowBitOf (b : Byte) : Byte := b &&& 0x01#8

/-- The bit a left shift puts out: bit 7 (R150). -/
def highBitOf (b : Byte) : Byte := (b &&& 0x80#8) >>> 7

/-- `VF <- f`. -/
def writeFlag (f : Byte) (s : State) : State := writeV flagReg f s

end Sys2Proof.Machine
end

