-- ==== Sys2Proof/Machine/Operands.lean ====
section
/-! DEFINITION. Operand forms: the one data addressing mode (spec/43_index_memory.md R176), the skip,
key numbers, glyph addresses, decimal digits, and the transfers of `FX55` and `FX65`. -/

namespace Sys2Proof.Machine

/-- The address of byte `k` of a data access; the access primitives reduce it modulo 4096 (R176). -/
def dataAddr (i : Word) (k : Nat) : Nat := i.toNat + k

/-- A skip: `pc <- (pc + 2) mod 2^16` when the condition holds, else nothing (R128). -/
def skipIf (c : Bool) (s : State) : State := if c then writePc (s.pc + 2#16) s else s

/-- The low nibble of a register: a key number or a glyph number (R172, R200). -/
def lowNibble (b : Byte) : Nibble := b.setWidth 4

/-- `NNN + zext_16(V[0])`, before the mask of `BNNN` (spec/41_control_flow.md R127). -/
def indexedTarget (nnn : Addr) (v0 : Byte) : Word := nnn.setWidth 16 + v0.setWidth 16

/-- `FONT_BASE + 5 * (V[X] & 0x0F)` for a given font base (R172). -/
def glyphAddr (base : FontBase) (b : Byte) : Word :=
  BitVec.ofNat 16 (base.val + 5 * (lowNibble b).toNat)

/-- The three decimal digits of a byte: hundreds, tens, ones (R173). -/
def decimalDigits (b : Byte) : List Byte :=
  [BitVec.ofNat 8 (b.toNat / 100), BitVec.ofNat 8 (b.toNat / 10 % 10), BitVec.ofNat 8 (b.toNat % 10)]

/-- `V[0]` to `V[n - 1]` in order, for `FX55` (R174). -/
def firstRegs (v : Regs) (n : Nat) : List Byte :=
  (List.range n).map fun k => getReg v (BitVec.ofNat 4 k)

/-- The register file with `V[0]` to `V[n - 1]` loaded from ascending addresses, for `FX65` (R175). -/
def loadFirstRegs (m : Memory) (i : Word) (n : Nat) (v : Regs) : Regs :=
  (List.range n).foldl (fun v k => setReg (BitVec.ofNat 4 k) (memRead m (dataAddr i k)) v) v

/-- `a + X + 1`, the value `FX55` and `FX65` give `I` before its mask (R174, R175). -/
def advancedI (i : Word) (x : Nibble) : Word := i + x.setWidth 16 + 1#16

end Sys2Proof.Machine
end

