-- ==== Sys2Proof/Machine/Alu.lean ====
section
/-! DEFINITION. Register loads, arithmetic, logic, shifts, random (spec/42_register_alu.md R140 to R150,
R160, R161). Operands are read first, writes happen in the order the rule lists (spec/00_scope.md R11). -/

namespace Sys2Proof.Machine

/-- A result to `V[x]` and then a flag to `VF`: the order of `8XY4`, `8XY5`, `8XY7`. -/
def resultThenFlag (x : Nibble) (r f : Byte) (s : State) : State := writeFlag f (writeV x r s)

/-- A flag to `VF` and then a result to `V[x]`: the order of `8XY6`, `8XYE`. -/
def flagThenResult (x : Nibble) (r f : Byte) (s : State) : State := writeV x r (writeFlag f s)

/-- `6XNN` LD (R140). -/
def execLdImm (x : Nibble) (nn : Byte) (s : State) : Result := .next (writeV x nn s)

/-- `7XNN` ADD, modulo 256, no flag (R141). -/
def execAddImm (x : Nibble) (nn : Byte) (s : State) : Result := .next (writeV x (readV s x + nn) s)

/-- `8XY0` LD (R142). -/
def execLdReg (x y : Nibble) (s : State) : Result := .next (writeV x (readV s y) s)

/-- `8XY1` OR, no flag (R143). -/
def execOrReg (x y : Nibble) (s : State) : Result := .next (writeV x (readV s x ||| readV s y) s)

/-- `8XY2` AND, no flag (R144). -/
def execAndReg (x y : Nibble) (s : State) : Result := .next (writeV x (readV s x &&& readV s y) s)

/-- `8XY3` XOR, no flag (R145). -/
def execXorReg (x y : Nibble) (s : State) : Result := .next (writeV x (readV s x ^^^ readV s y) s)

/-- `8XY4` ADD: the sum modulo 256, then `VF` = carry (R146). -/
def execAddReg (x y : Nibble) (s : State) : Result :=
  let a := readV s x
  let b := readV s y
  .next (resultThenFlag x (a + b) (flagByte (carryOf a b)) s)

/-- `8XY5` SUB: the difference modulo 256, then `VF` = not-borrow (R147). -/
def execSubReg (x y : Nibble) (s : State) : Result :=
  let a := readV s x
  let b := readV s y
  .next (resultThenFlag x (a - b) (flagByte (notBorrowOf a b)) s)

/-- `8XY6` SHR: `VF` = bit 0 of `V[Y]`, then `V[X]` = `V[Y] >> 1` (R148). -/
def execShrReg (x y : Nibble) (s : State) : Result :=
  let b := readV s y
  .next (flagThenResult x (b >>> 1) (lowBitOf b) s)

/-- `8XY7` SUBN: `V[Y] - V[X]` modulo 256, then `VF` = not-borrow (R149). -/
def execSubnReg (x y : Nibble) (s : State) : Result :=
  let a := readV s x
  let b := readV s y
  .next (resultThenFlag x (b - a) (flagByte (notBorrowOf b a)) s)

/-- `8XYE` SHL: `VF` = bit 7 of `V[Y]`, then `V[X]` = `V[Y] << 1` (R150). -/
def execShlReg (x y : Nibble) (s : State) : Result :=
  let b := readV s y
  .next (flagThenResult x (b <<< 1) (highBitOf b) s)

/-- `CXNN` RND for a given drawn byte: `V[X] <- r & NN`, and the draw is used up (R160). -/
def rndWith (r : Byte) (x : Nibble) (nn : Byte) (s : State) : Result :=
  .next (advanceDraws (writeV x (r &&& nn) s))

/-- `CXNN` RND (R160) with the next free byte (spec/10_state.md R39). Log entry 4. -/
def execRnd (x : Nibble) (nn : Byte) (s : State) : Result := rndWith (Config.randByte s.draws) x nn s

end Sys2Proof.Machine
end

