-- ==== Sys2Proof/Machine/ControlFlow.lean ====
section
/-! DEFINITION. Control flow (spec/41_control_flow.md R120 to R128). `pc` on entry is whatever the state
holds: inside a Step, the instruction's address plus 2 (spec/40_execution_cycle.md R109). -/

namespace Sys2Proof.Machine

/-- `00EE` RET: pops into `pc`, all 16 bits; `StackUnderflow` when the stack is empty (R120). -/
def execRet (s : State) : Result :=
  match s.stack with
  | [] => raise .stackUnderflow
  | a :: st => .next (writePc a (writeStack st s))

/-- `1NNN` JP (R121). -/
def execJp (nnn : Addr) (s : State) : Result := .next (writePc (nnn.setWidth 16) s)

/-- `2NNN` CALL under a given stack limit: `StackOverflow` at the limit, else pushes `pc` (R122). -/
def callWithin (limit : StackLimit) (nnn : Addr) (s : State) : Result :=
  if stackFull limit s.stack then raise .stackOverflow
  else .next (writePc (nnn.setWidth 16) (writeStack (s.pc :: s.stack) s))

/-- `2NNN` CALL (R122), with this hardware's `STACK_MAX`. -/
def execCall (nnn : Addr) (s : State) : Result := callWithin Config.stackMax nnn s

/-- `3XNN` SE: skips if `V[X] = NN` (R123). -/
def execSeImm (x : Nibble) (nn : Byte) (s : State) : Result := .next (skipIf (readV s x == nn) s)

/-- `4XNN` SNE: skips if `V[X] != NN` (R124). -/
def execSneImm (x : Nibble) (nn : Byte) (s : State) : Result := .next (skipIf (readV s x != nn) s)

/-- `5XY0` SE: skips if `V[X] = V[Y]` (R125). -/
def execSeReg (x y : Nibble) (s : State) : Result := .next (skipIf (readV s x == readV s y) s)

/-- `9XY0` SNE: skips if `V[X] != V[Y]` (R126). -/
def execSneReg (x y : Nibble) (s : State) : Result := .next (skipIf (readV s x != readV s y) s)

/-- `BNNN` JP V0: `pc <- (NNN + V[0]) & 0x0FFF` (R127). -/
def execJpV0 (nnn : Addr) (s : State) : Result :=
  .next (writePc (indexedTarget nnn (readV s 0x0#4) &&& 0x0FFF#16) s)

end Sys2Proof.Machine
end

