-- ==== Sys2Proof/Machine/Display.lean ====
section
/-! DEFINITION. Display instructions (spec/44_display.md R190 to R193). -/

namespace Sys2Proof.Machine

/-- The screen's width in cells. -/
def screenWidth : Nat := 64

/-- The screen's height in cells. -/
def screenHeight : Nat := 32

/-- `display[64 * y + x]` (spec/10_state.md R33). -/
def getCell (d : Display) (x y : Nat) (h : x < 64 ∧ y < 32) : Bool := d[64 * y + x]'(by omega)

/-- The cell at column `x` and row `y` replaced. -/
def setCell (x y : Nat) (b : Bool) (d : Display) (h : x < 64 ∧ y < 32) : Display :=
  d.set (64 * y + x) b (by omega)

/-- One cell of a draw (R191): outside the screen it is clipped; else `old xor bit`, and a collision if
both were set. The pair is the display and whether a collision has been met. Log entry 12. -/
def drawCell (x y : Nat) (bit : Bool) (acc : Display × Bool) : Display × Bool :=
  if h : x < 64 ∧ y < 32 then
    let old := getCell acc.1 x y h
    (setCell x y (old ^^ bit) acc.1 h, acc.2 || (old && bit))
  else acc

/-- Bit `c` of a sprite byte, the most significant first (R191). -/
def spriteBit (b : Byte) (c : Nat) : Bool := b.getLsbD (7 - c)

/-- One row of a draw: the eight bits of `b` from column `x0` on (R191). -/
def drawRow (x0 y : Nat) (b : Byte) (acc : Display × Bool) : Display × Bool :=
  (List.range 8).foldl (fun acc c => drawCell (x0 + c) y (spriteBit b c) acc) acc

/-- The rows of a sprite, given as its bytes, from row `y` down (R191). -/
def drawRows (x0 : Nat) : Nat → List Byte → Display × Bool → Display × Bool
  | _, [], acc => acc
  | y, b :: bs, acc => drawRows x0 (y + 1) bs (drawRow x0 y b acc)

/-- The `n` sprite bytes from `I` upwards (R191, R193 (g)). -/
def spriteBytes (m : Memory) (i : Word) (n : Nat) : List Byte :=
  (List.range n).map fun r => memRead m (dataAddr i r)

/-- The column of a sprite's origin: `V[X] mod 64`, once (R191, R193 (a)). -/
def originX (b : Byte) : Nat := b.toNat % 64

/-- The row of a sprite's origin: `V[Y] mod 32`, once. -/
def originY (b : Byte) : Nat := b.toNat % 32

/-- `00E0` CLS (R190). -/
def execCls (s : State) : Result := .next (writeDisplay (Vector.replicate 2048 false) s)

/-- `DXYN` DRW (R191): the operands are read first, `VF` ends as the collision flag. -/
def execDrw (x y n : Nibble) (s : State) : Result :=
  let drawn := drawRows (originX (readV s x)) (originY (readV s y))
    (spriteBytes s.memory s.i n.toNat) (s.display, false)
  .next (writeDisplay drawn.1 (writeFlag (flagByte drawn.2) s))

end Sys2Proof.Machine
end

