-- ==== Sys2Proof/Machine/IndexMemory.lean ====
section
/-! DEFINITION. Index register and memory instructions (spec/43_index_memory.md R170 to R176). No one of
them faults; every data address is reduced modulo 4096. -/

namespace Sys2Proof.Machine

/-- `ANNN` LD I (R170). -/
def execLdI (nnn : Addr) (s : State) : Result := .next (writeI (nnn.setWidth 16) s)

/-- `FX1E` ADD I: masked to 12 bits, no flag (R171). -/
def execAddI (x : Nibble) (s : State) : Result := .next (writeI (s.i + (readV s x).setWidth 16) s)

/-- `FX29` LD F under a given font base (R172). -/
def ldFWith (base : FontBase) (x : Nibble) (s : State) : Result :=
  .next (writeI (glyphAddr base (readV s x)) s)

/-- `FX29` LD F (R172), with this hardware's `FONT_BASE`. -/
def execLdF (x : Nibble) (s : State) : Result := ldFWith Config.fontBase x s

/-- `FX33` LD B: three decimal digits from `I` upwards; `I` unchanged (R173). -/
def execLdB (x : Nibble) (s : State) : Result :=
  .next (writeMemory (memWriteBytes (dataAddr s.i 0) (decimalDigits (readV s x)) s.memory) s)

/-- `FX55` LD [I], Vx: `V[0]` to `V[X]` from `I` upwards, then `I` past them (R174). -/
def execStoreRegs (x : Nibble) (s : State) : Result :=
  .next (writeI (advancedI s.i x)
    (writeMemory (memWriteBytes (dataAddr s.i 0) (firstRegs s.v (x.toNat + 1)) s.memory) s))

/-- `FX65` LD Vx, [I]: `V[0]` to `V[X]` from `I` upwards, then `I` past them (R175). -/
def execLoadRegs (x : Nibble) (s : State) : Result :=
  .next (writeI (advancedI s.i x) (writeRegs (loadFirstRegs s.memory s.i (x.toNat + 1) s.v) s))

end Sys2Proof.Machine
end

