-- ==== Sys2Proof/Machine/KeypadTimer.lean ====
section
/-! DEFINITION. Keypad and timer instructions (spec/45_keypad_timer_instructions.md R200 to R206). -/

namespace Sys2Proof.Machine

/-- `EX9E` SKP: skips if the key in the low nibble of `V[X]` is down (R200). -/
def execSkp (x : Nibble) (s : State) : Result :=
  .next (skipIf (getKey s.keys (lowNibble (readV s x))) s)

/-- `EXA1` SKNP: skips if that key is up (R201). -/
def execSknp (x : Nibble) (s : State) : Result :=
  .next (skipIf (!getKey s.keys (lowNibble (readV s x))) s)

/-- `FX07` LD Vx, DT (R204). -/
def execLdVxDT (x : Nibble) (s : State) : Result := .next (writeV x s.delay s)

/-- `FX0A` LD Vx, K: with no current key, back to itself; else the key's number (R202, R203). -/
def execLdVxK (x : Nibble) (s : State) : Result :=
  match s.currentKey with
  | none => .next (writePc (s.pc - 2#16) s)
  | some k => .next (writeV x (k.setWidth 8) s)

/-- `FX15` LD DT, Vx (R205). -/
def execLdDTVx (x : Nibble) (s : State) : Result := .next (writeDelay (readV s x) s)

/-- `FX18` LD ST, Vx (R206). -/
def execLdSTVx (x : Nibble) (s : State) : Result := .next (writeSound (readV s x) s)

end Sys2Proof.Machine
end

