-- ==== Sys2Proof/Machine/System.lean ====
section
/-! DEFINITION. The two handlers of the dispatcher itself (spec/40_execution_cycle.md R105, R106). -/

namespace Sys2Proof.Machine

/-- `0NNN` SYS: sets `bad_opcode`, no other effect; `NNN` is ignored (R106). -/
def execSys (_nnn : Addr) (s : State) : Result := .next (writeBadOpcode true s)

/-- `Unknown`: sets `bad_opcode`, no other effect; no fault (R105). No row of the opcode table, so no arm
of `exec`: `execute` calls it. Log entry 10. -/
def execUnknown (s : State) : Result := .next (writeBadOpcode true s)

end Sys2Proof.Machine
end

