-- ==== Sys2Proof/Machine/Cycle.lean ====
section
/-! DEFINITION. The execution cycle (spec/40_execution_cycle.md R101 to R110): Fetch and Execute, which
Step pairs, and the word that stands where Fetch reads next. -/

namespace Sys2Proof.Machine

/-- The last `pc` an instruction can be fetched from (R101, spec/10_state.md R29). -/
def lastFetch : Nat := 0x0FFE

/-- `Fetch`: the two bytes at `pc`, big-endian, and `pc + 2`; above 0x0FFE a fault (R101, R102). -/
def fetch (s : State) : Host.Outcome (Word × State) Fault Refusal :=
  if lastFetch < s.pc.toNat then .fault (.fetchOutOfRange s.pc)
  else .next (memReadOpcode s.memory s.pc.toNat, writePc (s.pc + 2#16) s)

/-- The handler of a decoded word: the instruction's, or `Unknown`'s (R104, R105). -/
def dispatch (d : Decoded) (s : State) : Result :=
  match d with
  | .instr i => exec i s
  | .unknown _ => execUnknown s

/-- `Execute(op)`: clears `bad_opcode`, decodes, runs the handler, whatever `pc` is (R103, R110). -/
def execute (op : Word) (s : State) : Result := dispatch (decode op) (writeBadOpcode false s)

/-- `Step`: Fetch, then Execute of the fetched opcode (R107). -/
def fetchExecute (s : State) : Result :=
  match fetch s with
  | .next r => execute r.1 r.2
  | .fault f => .fault f
  | .refused r => .refused r

/-- A state with an opcode stored where Fetch reads next, and nothing else changed. Log entry 9. -/
def placeOpcode (op : Word) (s : State) : State :=
  writeMemory (memWriteOpcode s.pc.toNat op s.memory) s

end Sys2Proof.Machine
end

