-- ==== Sys2Proof/Machine/Step.lean ====
section
/-! DEFINITION. One step of the machine: the host command Step (spec/40_execution_cycle.md R107). -/

namespace Sys2Proof.Machine

/-- Step (R107): one instruction. -/
def step (s : State) : Host.Outcome State Fault Refusal := fetchExecute s

/-- `s` with the instruction the opcode table numbers `w` stored where `step` fetches next. It stands for
the host's Load (spec/70_reset_and_hazards.md R262). Log entry 9. -/
def State.withFetchWord (s : State) (nbits w : Nat) : State := placeOpcode (tableWord nbits w) s

end Sys2Proof.Machine
end

