-- ==== Sys2Proof/Laws/Display.lean ====
section
/-! SUPPORT. What the draw loop of `DXYN` does, one lemma per operation: each cell of the result, and when
a collision is met (spec/44_display.md R191, R193). -/

namespace Sys2Proof.Machine

/-! ### Cells -/

/-- Reading a cell after writing one. -/
theorem getCell_setCell (d : Display) (x y x' y' : Nat) (b : Bool) (h : x < 64 ∧ y < 32)
    (h' : x' < 64 ∧ y' < 32) :
    getCell (setCell x y b d h) x' y' h' = if x' = x ∧ y' = y then b else getCell d x' y' h' := by
  unfold getCell setCell
  rw [Vector.getElem_set]
  by_cases e : x' = x ∧ y' = y
  · obtain ⟨rfl, rfl⟩ := e
    simp
  · rw [if_neg (by omega), if_neg e]

/-- Displays with the same cells are equal. -/
theorem display_ext {d e : Display} (h : ∀ x y hc, getCell d x y hc = getCell e x y hc) : d = e := by
  apply Vector.ext
  intro k hk
  have := h (k % 64) (k / 64) (by omega)
  simpa only [getCell, show 64 * (k / 64) + k % 64 = k by omega] using this

/-- Every cell of the clear display is dark. -/
theorem getCell_clear (x y : Nat) (h : x < 64 ∧ y < 32) :
    getCell (Vector.replicate 2048 false) x y h = false := by
  unfold getCell
  exact Vector.getElem_replicate ..

/-! ### One cell of a draw -/

theorem drawCell_cell (x y : Nat) (bit : Bool) (acc : Display × Bool) (x' y' : Nat)
    (h' : x' < 64 ∧ y' < 32) :
    getCell (drawCell x y bit acc).1 x' y' h' =
      (getCell acc.1 x' y' h' ^^ (decide (x' = x ∧ y' = y) && bit)) := by
  unfold drawCell
  split
  · next h =>
    simp only [getCell_setCell]
    by_cases e : x' = x ∧ y' = y
    · obtain ⟨rfl, rfl⟩ := e
      simp
    · simp [e]
  · next h =>
    have : ¬ (x' = x ∧ y' = y) := by
      rintro ⟨rfl, rfl⟩
      exact h h'
    simp [this]

theorem drawCell_collision (x y : Nat) (bit : Bool) (acc : Display × Bool) :
    (drawCell x y bit acc).2 = true ↔
      acc.2 = true ∨ ∃ h, getCell acc.1 x y h = true ∧ bit = true := by
  unfold drawCell
  split
  · next h => simp [h]
  · next h => simp [h]

/-! ### The first cells of a row -/

/-- The first `n` cells of a row, each xored with its bit. -/
theorem drawCells_cell (x0 y n : Nat) (b : Byte) (acc : Display × Bool) (x' y' : Nat)
    (h' : x' < 64 ∧ y' < 32) :
    getCell ((List.range n).foldl (fun acc c => drawCell (x0 + c) y (spriteBit b c) acc) acc).1 x' y' h' =
      (getCell acc.1 x' y' h' ^^
        (decide (y' = y ∧ x0 ≤ x' ∧ x' < x0 + n) && spriteBit b (x' - x0))) := by
  induction n with
  | zero =>
    have : ¬ (y' = y ∧ x0 ≤ x' ∧ x' < x0 + 0) := by omega
    simp only [this, decide_false, Bool.false_and, Bool.xor_false, List.range_zero, List.foldl_nil]
  | succ n ih =>
    rw [List.range_succ, List.foldl_append, List.foldl_cons, List.foldl_nil, drawCell_cell, ih]
    by_cases e : x' = x0 + n ∧ y' = y
    · obtain ⟨rfl, rfl⟩ := e
      simp
    · have : (y' = y ∧ x0 ≤ x' ∧ x' < x0 + (n + 1)) ↔ (y' = y ∧ x0 ≤ x' ∧ x' < x0 + n) := by omega
      simp only [e, this, decide_false, Bool.false_and, Bool.xor_false]

/-- A collision within the first `n` cells of a row, each met on a cell the row had not touched. -/
theorem drawCells_collision (x0 y n : Nat) (b : Byte) (acc : Display × Bool) :
    ((List.range n).foldl (fun acc c => drawCell (x0 + c) y (spriteBit b c) acc) acc).2 = true ↔
      acc.2 = true ∨ ∃ x', ∃ h, getCell acc.1 x' y h = true ∧ x0 ≤ x' ∧ x' < x0 + n ∧
        spriteBit b (x' - x0) = true := by
  induction n with
  | zero =>
    simp only [List.range_zero, List.foldl_nil]
    constructor
    · exact .inl
    · rintro (h | ⟨x', _, _, h1, h2, _⟩)
      · exact h
      · omega
  | succ n ih =>
    rw [List.range_succ, List.foldl_append, List.foldl_cons, List.foldl_nil, drawCell_collision, ih]
    have untouched : ∀ h, getCell ((List.range n).foldl
        (fun acc c => drawCell (x0 + c) y (spriteBit b c) acc) acc).1 (x0 + n) y h =
          getCell acc.1 (x0 + n) y h := by
      intro h
      rw [drawCells_cell, decide_eq_false (by omega), Bool.false_and, Bool.xor_false]
    simp only [untouched]
    constructor
    · rintro ((h | ⟨x', h, h1, h2, h3, h4⟩) | ⟨h, h1, h2⟩)
      · exact .inl h
      · exact .inr ⟨x', h, h1, h2, by omega, h4⟩
      · exact .inr ⟨x0 + n, h, h1, by omega, by omega, by simpa using h2⟩
    · rintro (h | ⟨x', h, h1, h2, h3, h4⟩)
      · exact .inl (.inl h)
      · by_cases e : x' = x0 + n
        · subst e
          exact .inr ⟨h, h1, by simpa using h4⟩
        · exact .inl (.inr ⟨x', h, h1, h2, by omega, h4⟩)

/-! ### One row -/

theorem drawRow_cell (x0 y : Nat) (b : Byte) (acc : Display × Bool) (x' y' : Nat)
    (h' : x' < 64 ∧ y' < 32) :
    getCell (drawRow x0 y b acc).1 x' y' h' =
      (getCell acc.1 x' y' h' ^^
        (decide (y' = y ∧ x0 ≤ x' ∧ x' < x0 + 8) && spriteBit b (x' - x0))) :=
  drawCells_cell x0 y 8 b acc x' y' h'

theorem drawRow_collision (x0 y : Nat) (b : Byte) (acc : Display × Bool) :
    (drawRow x0 y b acc).2 = true ↔
      acc.2 = true ∨ ∃ x', ∃ h, getCell acc.1 x' y h = true ∧ x0 ≤ x' ∧ x' < x0 + 8 ∧
        spriteBit b (x' - x0) = true :=
  drawCells_collision x0 y 8 b acc

/-! ### All rows -/

/-- Whether the sprite with the bytes `bs` and its origin at `(x0, y0)` has a set bit at `(x, y)`. -/
def covers (x0 y0 : Nat) (bs : List Byte) (x y : Nat) : Bool :=
  decide (y0 ≤ y ∧ y < y0 + bs.length ∧ x0 ≤ x ∧ x < x0 + 8) &&
    spriteBit (bs.getD (y - y0) 0x00#8) (x - x0)

theorem covers_eq_true (x0 y0 : Nat) (bs : List Byte) (x y : Nat) :
    covers x0 y0 bs x y = true ↔ (y0 ≤ y ∧ y < y0 + bs.length ∧ x0 ≤ x ∧ x < x0 + 8) ∧
      spriteBit (bs.getD (y - y0) 0x00#8) (x - x0) = true := by
  unfold covers
  rw [Bool.and_eq_true, decide_eq_true_iff]

theorem covers_nil (x0 y0 x y : Nat) : covers x0 y0 [] x y = false := by
  have : ¬ (y0 ≤ y ∧ y < y0 + ([] : List Byte).length ∧ x0 ≤ x ∧ x < x0 + 8) := by
    rw [List.length_nil]; omega
  simp only [covers, this, decide_false, Bool.false_and]

/-- A sprite is its first row and, from the next row on, its other rows. -/
theorem covers_cons (x0 y0 : Nat) (b : Byte) (bs : List Byte) (x y : Nat) :
    covers x0 y0 (b :: bs) x y =
      ((decide (y = y0 ∧ x0 ≤ x ∧ x < x0 + 8) && spriteBit b (x - x0)) ^^
        covers x0 (y0 + 1) bs x y) := by
  unfold covers
  by_cases e : y = y0
  · subst e
    have h1 : ¬ (y + 1 ≤ y ∧ y < y + 1 + bs.length ∧ x0 ≤ x ∧ x < x0 + 8) := by omega
    have h2 : (y ≤ y ∧ y < y + (b :: bs).length ∧ x0 ≤ x ∧ x < x0 + 8) ↔
        (y = y ∧ x0 ≤ x ∧ x < x0 + 8) := by
      rw [List.length_cons]; omega
    simp only [h1, h2, decide_false, Bool.false_and, Bool.xor_false, Nat.sub_self, List.getD_cons_zero]
  · have h1 : ¬ (y = y0 ∧ x0 ≤ x ∧ x < x0 + 8) := by omega
    have h2 : (y0 ≤ y ∧ y < y0 + (b :: bs).length ∧ x0 ≤ x ∧ x < x0 + 8) ↔
        (y0 + 1 ≤ y ∧ y < y0 + 1 + bs.length ∧ x0 ≤ x ∧ x < x0 + 8) := by
      rw [List.length_cons]; omega
    simp only [h1, h2, decide_false, Bool.false_and, Bool.false_xor]
    by_cases g : y0 + 1 ≤ y
    · have : y - y0 = (y - (y0 + 1)) + 1 := by omega
      rw [this, List.getD_cons_succ]
    · have : ¬ (y0 + 1 ≤ y ∧ y < y0 + 1 + bs.length ∧ x0 ≤ x ∧ x < x0 + 8) := by omega
      simp only [this, decide_false, Bool.false_and]

/-- Every cell after a draw: the old one xor the sprite's bit there. -/
theorem drawRows_cell (x0 y0 : Nat) (bs : List Byte) (acc : Display × Bool) (x y : Nat)
    (h : x < 64 ∧ y < 32) :
    getCell (drawRows x0 y0 bs acc).1 x y h = (getCell acc.1 x y h ^^ covers x0 y0 bs x y) := by
  induction bs generalizing y0 acc with
  | nil => simp [drawRows, covers_nil]
  | cons b bs ih =>
    show getCell (drawRows x0 (y0 + 1) bs (drawRow x0 y0 b acc)).1 x y h = _
    rw [ih, drawRow_cell, covers_cons, Bool.xor_assoc]

/-- A draw meets a collision exactly where a cell was lit and the sprite has a set bit. -/
theorem drawRows_collision (x0 y0 : Nat) (bs : List Byte) (acc : Display × Bool) :
    (drawRows x0 y0 bs acc).2 = true ↔
      acc.2 = true ∨ ∃ x y, ∃ h, getCell acc.1 x y h = true ∧ covers x0 y0 bs x y = true := by
  induction bs generalizing y0 acc with
  | nil => simp [drawRows, covers_nil]
  | cons b bs ih =>
    show (drawRows x0 (y0 + 1) bs (drawRow x0 y0 b acc)).2 = true ↔ _
    rw [ih, drawRow_collision]
    simp only [drawRow_cell, covers_cons]
    constructor
    · rintro ((h | ⟨x, h, h1, h2, h3, h4⟩) | ⟨x, y, h, h1, h2⟩)
      · exact .inl h
      · refine .inr ⟨x, y0, h, h1, ?_⟩
        have : covers x0 (y0 + 1) bs x y0 = false := by
          have : ¬ (y0 + 1 ≤ y0 ∧ y0 < y0 + 1 + bs.length ∧ x0 ≤ x ∧ x < x0 + 8) := by omega
          simp only [covers, this, decide_false, Bool.false_and]
        simp [this, h2, h3, h4]
      · refine .inr ⟨x, y, h, ?_⟩
        have hy : ¬ (y = y0 ∧ x0 ≤ x ∧ x < x0 + 8) := by
          rintro ⟨rfl, -, -⟩
          simp [covers] at h2
        simp only [hy, decide_false, Bool.false_and, Bool.xor_false, Bool.false_xor] at h1 ⊢
        exact ⟨h1, h2⟩
    · rintro (h | ⟨x, y, h, h1, h2⟩)
      · exact .inl (.inl h)
      · by_cases hy : y = y0 ∧ x0 ≤ x ∧ x < x0 + 8
        · obtain ⟨rfl, h3, h4⟩ := hy
          have : covers x0 (y + 1) bs x y = false := by
            have : ¬ (y + 1 ≤ y ∧ y < y + 1 + bs.length ∧ x0 ≤ x ∧ x < x0 + 8) := by omega
            simp only [covers, this, decide_false, Bool.false_and]
          simp only [this, Bool.xor_false, Bool.and_eq_true] at h2
          exact .inl (.inr ⟨x, h, h1, h3, h4, h2.2⟩)
        · simp only [hy, decide_false, Bool.false_and, Bool.false_xor] at h2
          exact .inr ⟨x, y, h, by simp [hy, h1], h2⟩

end Sys2Proof.Machine
end

