-- ==== Sys2Proof/Laws/State.lean ====
section
/-! SUPPORT. One lemma per field per update of the state, each true by `rfl` and in the simp set, so that
no proof unfolds a record update; and the registers read back through `readV`. -/

namespace Sys2Proof.Machine

variable (s : State)

/-! ### `writeV` -/

@[simp] theorem writeV_memory (x : Nibble) (b : Byte) : (writeV x b s).memory = s.memory := rfl
@[simp] theorem writeV_v (x : Nibble) (b : Byte) : (writeV x b s).v = setReg x b s.v := rfl
@[simp] theorem writeV_i (x : Nibble) (b : Byte) : (writeV x b s).i = s.i := rfl
@[simp] theorem writeV_pc (x : Nibble) (b : Byte) : (writeV x b s).pc = s.pc := rfl
@[simp] theorem writeV_stack (x : Nibble) (b : Byte) : (writeV x b s).stack = s.stack := rfl
@[simp] theorem writeV_display (x : Nibble) (b : Byte) : (writeV x b s).display = s.display := rfl
@[simp] theorem writeV_delay (x : Nibble) (b : Byte) : (writeV x b s).delay = s.delay := rfl
@[simp] theorem writeV_sound (x : Nibble) (b : Byte) : (writeV x b s).sound = s.sound := rfl
@[simp] theorem writeV_keys (x : Nibble) (b : Byte) : (writeV x b s).keys = s.keys := rfl
@[simp] theorem writeV_currentKey (x : Nibble) (b : Byte) : (writeV x b s).currentKey = s.currentKey := rfl
@[simp] theorem writeV_badOpcode (x : Nibble) (b : Byte) : (writeV x b s).badOpcode = s.badOpcode := rfl
@[simp] theorem writeV_draws (x : Nibble) (b : Byte) : (writeV x b s).draws = s.draws := rfl

/-! ### `writeRegs` -/

@[simp] theorem writeRegs_memory (v : Regs) : (writeRegs v s).memory = s.memory := rfl
@[simp] theorem writeRegs_v (v : Regs) : (writeRegs v s).v = v := rfl
@[simp] theorem writeRegs_i (v : Regs) : (writeRegs v s).i = s.i := rfl
@[simp] theorem writeRegs_pc (v : Regs) : (writeRegs v s).pc = s.pc := rfl
@[simp] theorem writeRegs_stack (v : Regs) : (writeRegs v s).stack = s.stack := rfl
@[simp] theorem writeRegs_display (v : Regs) : (writeRegs v s).display = s.display := rfl
@[simp] theorem writeRegs_delay (v : Regs) : (writeRegs v s).delay = s.delay := rfl
@[simp] theorem writeRegs_sound (v : Regs) : (writeRegs v s).sound = s.sound := rfl
@[simp] theorem writeRegs_keys (v : Regs) : (writeRegs v s).keys = s.keys := rfl
@[simp] theorem writeRegs_currentKey (v : Regs) : (writeRegs v s).currentKey = s.currentKey := rfl
@[simp] theorem writeRegs_badOpcode (v : Regs) : (writeRegs v s).badOpcode = s.badOpcode := rfl
@[simp] theorem writeRegs_draws (v : Regs) : (writeRegs v s).draws = s.draws := rfl

/-! ### `writeI` -/

@[simp] theorem writeI_memory (a : Word) : (writeI a s).memory = s.memory := rfl
@[simp] theorem writeI_v (a : Word) : (writeI a s).v = s.v := rfl
@[simp] theorem writeI_i (a : Word) : (writeI a s).i = a &&& 0x0FFF#16 := rfl
@[simp] theorem writeI_pc (a : Word) : (writeI a s).pc = s.pc := rfl
@[simp] theorem writeI_stack (a : Word) : (writeI a s).stack = s.stack := rfl
@[simp] theorem writeI_display (a : Word) : (writeI a s).display = s.display := rfl
@[simp] theorem writeI_delay (a : Word) : (writeI a s).delay = s.delay := rfl
@[simp] theorem writeI_sound (a : Word) : (writeI a s).sound = s.sound := rfl
@[simp] theorem writeI_keys (a : Word) : (writeI a s).keys = s.keys := rfl
@[simp] theorem writeI_currentKey (a : Word) : (writeI a s).currentKey = s.currentKey := rfl
@[simp] theorem writeI_badOpcode (a : Word) : (writeI a s).badOpcode = s.badOpcode := rfl
@[simp] theorem writeI_draws (a : Word) : (writeI a s).draws = s.draws := rfl

/-! ### `writePc` -/

@[simp] theorem writePc_memory (a : Word) : (writePc a s).memory = s.memory := rfl
@[simp] theorem writePc_v (a : Word) : (writePc a s).v = s.v := rfl
@[simp] theorem writePc_i (a : Word) : (writePc a s).i = s.i := rfl
@[simp] theorem writePc_pc (a : Word) : (writePc a s).pc = a := rfl
@[simp] theorem writePc_stack (a : Word) : (writePc a s).stack = s.stack := rfl
@[simp] theorem writePc_display (a : Word) : (writePc a s).display = s.display := rfl
@[simp] theorem writePc_delay (a : Word) : (writePc a s).delay = s.delay := rfl
@[simp] theorem writePc_sound (a : Word) : (writePc a s).sound = s.sound := rfl
@[simp] theorem writePc_keys (a : Word) : (writePc a s).keys = s.keys := rfl
@[simp] theorem writePc_currentKey (a : Word) : (writePc a s).currentKey = s.currentKey := rfl
@[simp] theorem writePc_badOpcode (a : Word) : (writePc a s).badOpcode = s.badOpcode := rfl
@[simp] theorem writePc_draws (a : Word) : (writePc a s).draws = s.draws := rfl

/-! ### `writeStack` -/

@[simp] theorem writeStack_memory (st : Stack) : (writeStack st s).memory = s.memory := rfl
@[simp] theorem writeStack_v (st : Stack) : (writeStack st s).v = s.v := rfl
@[simp] theorem writeStack_i (st : Stack) : (writeStack st s).i = s.i := rfl
@[simp] theorem writeStack_pc (st : Stack) : (writeStack st s).pc = s.pc := rfl
@[simp] theorem writeStack_stack (st : Stack) : (writeStack st s).stack = st := rfl
@[simp] theorem writeStack_display (st : Stack) : (writeStack st s).display = s.display := rfl
@[simp] theorem writeStack_delay (st : Stack) : (writeStack st s).delay = s.delay := rfl
@[simp] theorem writeStack_sound (st : Stack) : (writeStack st s).sound = s.sound := rfl
@[simp] theorem writeStack_keys (st : Stack) : (writeStack st s).keys = s.keys := rfl
@[simp] theorem writeStack_currentKey (st : Stack) : (writeStack st s).currentKey = s.currentKey := rfl
@[simp] theorem writeStack_badOpcode (st : Stack) : (writeStack st s).badOpcode = s.badOpcode := rfl
@[simp] theorem writeStack_draws (st : Stack) : (writeStack st s).draws = s.draws := rfl

/-! ### `writeDisplay` -/

@[simp] theorem writeDisplay_memory (d : Display) : (writeDisplay d s).memory = s.memory := rfl
@[simp] theorem writeDisplay_v (d : Display) : (writeDisplay d s).v = s.v := rfl
@[simp] theorem writeDisplay_i (d : Display) : (writeDisplay d s).i = s.i := rfl
@[simp] theorem writeDisplay_pc (d : Display) : (writeDisplay d s).pc = s.pc := rfl
@[simp] theorem writeDisplay_stack (d : Display) : (writeDisplay d s).stack = s.stack := rfl
@[simp] theorem writeDisplay_display (d : Display) : (writeDisplay d s).display = d := rfl
@[simp] theorem writeDisplay_delay (d : Display) : (writeDisplay d s).delay = s.delay := rfl
@[simp] theorem writeDisplay_sound (d : Display) : (writeDisplay d s).sound = s.sound := rfl
@[simp] theorem writeDisplay_keys (d : Display) : (writeDisplay d s).keys = s.keys := rfl
@[simp] theorem writeDisplay_currentKey (d : Display) : (writeDisplay d s).currentKey = s.currentKey := rfl
@[simp] theorem writeDisplay_badOpcode (d : Display) : (writeDisplay d s).badOpcode = s.badOpcode := rfl
@[simp] theorem writeDisplay_draws (d : Display) : (writeDisplay d s).draws = s.draws := rfl

/-! ### `writeDelay` -/

@[simp] theorem writeDelay_memory (b : Byte) : (writeDelay b s).memory = s.memory := rfl
@[simp] theorem writeDelay_v (b : Byte) : (writeDelay b s).v = s.v := rfl
@[simp] theorem writeDelay_i (b : Byte) : (writeDelay b s).i = s.i := rfl
@[simp] theorem writeDelay_pc (b : Byte) : (writeDelay b s).pc = s.pc := rfl
@[simp] theorem writeDelay_stack (b : Byte) : (writeDelay b s).stack = s.stack := rfl
@[simp] theorem writeDelay_display (b : Byte) : (writeDelay b s).display = s.display := rfl
@[simp] theorem writeDelay_delay (b : Byte) : (writeDelay b s).delay = b := rfl
@[simp] theorem writeDelay_sound (b : Byte) : (writeDelay b s).sound = s.sound := rfl
@[simp] theorem writeDelay_keys (b : Byte) : (writeDelay b s).keys = s.keys := rfl
@[simp] theorem writeDelay_currentKey (b : Byte) : (writeDelay b s).currentKey = s.currentKey := rfl
@[simp] theorem writeDelay_badOpcode (b : Byte) : (writeDelay b s).badOpcode = s.badOpcode := rfl
@[simp] theorem writeDelay_draws (b : Byte) : (writeDelay b s).draws = s.draws := rfl

/-! ### `writeSound` -/

@[simp] theorem writeSound_memory (b : Byte) : (writeSound b s).memory = s.memory := rfl
@[simp] theorem writeSound_v (b : Byte) : (writeSound b s).v = s.v := rfl
@[simp] theorem writeSound_i (b : Byte) : (writeSound b s).i = s.i := rfl
@[simp] theorem writeSound_pc (b : Byte) : (writeSound b s).pc = s.pc := rfl
@[simp] theorem writeSound_stack (b : Byte) : (writeSound b s).stack = s.stack := rfl
@[simp] theorem writeSound_display (b : Byte) : (writeSound b s).display = s.display := rfl
@[simp] theorem writeSound_delay (b : Byte) : (writeSound b s).delay = s.delay := rfl
@[simp] theorem writeSound_sound (b : Byte) : (writeSound b s).sound = b := rfl
@[simp] theorem writeSound_keys (b : Byte) : (writeSound b s).keys = s.keys := rfl
@[simp] theorem writeSound_currentKey (b : Byte) : (writeSound b s).currentKey = s.currentKey := rfl
@[simp] theorem writeSound_badOpcode (b : Byte) : (writeSound b s).badOpcode = s.badOpcode := rfl
@[simp] theorem writeSound_draws (b : Byte) : (writeSound b s).draws = s.draws := rfl

/-! ### `writeBadOpcode` -/

@[simp] theorem writeBadOpcode_memory (b : Bool) : (writeBadOpcode b s).memory = s.memory := rfl
@[simp] theorem writeBadOpcode_v (b : Bool) : (writeBadOpcode b s).v = s.v := rfl
@[simp] theorem writeBadOpcode_i (b : Bool) : (writeBadOpcode b s).i = s.i := rfl
@[simp] theorem writeBadOpcode_pc (b : Bool) : (writeBadOpcode b s).pc = s.pc := rfl
@[simp] theorem writeBadOpcode_stack (b : Bool) : (writeBadOpcode b s).stack = s.stack := rfl
@[simp] theorem writeBadOpcode_display (b : Bool) : (writeBadOpcode b s).display = s.display := rfl
@[simp] theorem writeBadOpcode_delay (b : Bool) : (writeBadOpcode b s).delay = s.delay := rfl
@[simp] theorem writeBadOpcode_sound (b : Bool) : (writeBadOpcode b s).sound = s.sound := rfl
@[simp] theorem writeBadOpcode_keys (b : Bool) : (writeBadOpcode b s).keys = s.keys := rfl
@[simp] theorem writeBadOpcode_currentKey (b : Bool) : (writeBadOpcode b s).currentKey = s.currentKey := rfl
@[simp] theorem writeBadOpcode_badOpcode (b : Bool) : (writeBadOpcode b s).badOpcode = b := rfl
@[simp] theorem writeBadOpcode_draws (b : Bool) : (writeBadOpcode b s).draws = s.draws := rfl

/-! ### `writeMemory` -/

@[simp] theorem writeMemory_memory (m : Memory) : (writeMemory m s).memory = m := rfl
@[simp] theorem writeMemory_v (m : Memory) : (writeMemory m s).v = s.v := rfl
@[simp] theorem writeMemory_i (m : Memory) : (writeMemory m s).i = s.i := rfl
@[simp] theorem writeMemory_pc (m : Memory) : (writeMemory m s).pc = s.pc := rfl
@[simp] theorem writeMemory_stack (m : Memory) : (writeMemory m s).stack = s.stack := rfl
@[simp] theorem writeMemory_display (m : Memory) : (writeMemory m s).display = s.display := rfl
@[simp] theorem writeMemory_delay (m : Memory) : (writeMemory m s).delay = s.delay := rfl
@[simp] theorem writeMemory_sound (m : Memory) : (writeMemory m s).sound = s.sound := rfl
@[simp] theorem writeMemory_keys (m : Memory) : (writeMemory m s).keys = s.keys := rfl
@[simp] theorem writeMemory_currentKey (m : Memory) : (writeMemory m s).currentKey = s.currentKey := rfl
@[simp] theorem writeMemory_badOpcode (m : Memory) : (writeMemory m s).badOpcode = s.badOpcode := rfl
@[simp] theorem writeMemory_draws (m : Memory) : (writeMemory m s).draws = s.draws := rfl

/-! ### `writeKeys` -/

@[simp] theorem writeKeys_memory (ks : Keys) : (writeKeys ks s).memory = s.memory := rfl
@[simp] theorem writeKeys_v (ks : Keys) : (writeKeys ks s).v = s.v := rfl
@[simp] theorem writeKeys_i (ks : Keys) : (writeKeys ks s).i = s.i := rfl
@[simp] theorem writeKeys_pc (ks : Keys) : (writeKeys ks s).pc = s.pc := rfl
@[simp] theorem writeKeys_stack (ks : Keys) : (writeKeys ks s).stack = s.stack := rfl
@[simp] theorem writeKeys_display (ks : Keys) : (writeKeys ks s).display = s.display := rfl
@[simp] theorem writeKeys_delay (ks : Keys) : (writeKeys ks s).delay = s.delay := rfl
@[simp] theorem writeKeys_sound (ks : Keys) : (writeKeys ks s).sound = s.sound := rfl
@[simp] theorem writeKeys_keys (ks : Keys) : (writeKeys ks s).keys = ks := rfl
@[simp] theorem writeKeys_currentKey (ks : Keys) : (writeKeys ks s).currentKey = s.currentKey := rfl
@[simp] theorem writeKeys_badOpcode (ks : Keys) : (writeKeys ks s).badOpcode = s.badOpcode := rfl
@[simp] theorem writeKeys_draws (ks : Keys) : (writeKeys ks s).draws = s.draws := rfl

/-! ### `writeCurrentKey` -/

@[simp] theorem writeCurrentKey_memory (k : Option Nibble) : (writeCurrentKey k s).memory = s.memory := rfl
@[simp] theorem writeCurrentKey_v (k : Option Nibble) : (writeCurrentKey k s).v = s.v := rfl
@[simp] theorem writeCurrentKey_i (k : Option Nibble) : (writeCurrentKey k s).i = s.i := rfl
@[simp] theorem writeCurrentKey_pc (k : Option Nibble) : (writeCurrentKey k s).pc = s.pc := rfl
@[simp] theorem writeCurrentKey_stack (k : Option Nibble) : (writeCurrentKey k s).stack = s.stack := rfl
@[simp] theorem writeCurrentKey_display (k : Option Nibble) : (writeCurrentKey k s).display = s.display := rfl
@[simp] theorem writeCurrentKey_delay (k : Option Nibble) : (writeCurrentKey k s).delay = s.delay := rfl
@[simp] theorem writeCurrentKey_sound (k : Option Nibble) : (writeCurrentKey k s).sound = s.sound := rfl
@[simp] theorem writeCurrentKey_keys (k : Option Nibble) : (writeCurrentKey k s).keys = s.keys := rfl
@[simp] theorem writeCurrentKey_currentKey (k : Option Nibble) : (writeCurrentKey k s).currentKey = k := rfl
@[simp] theorem writeCurrentKey_badOpcode (k : Option Nibble) : (writeCurrentKey k s).badOpcode = s.badOpcode := rfl
@[simp] theorem writeCurrentKey_draws (k : Option Nibble) : (writeCurrentKey k s).draws = s.draws := rfl

/-! ### `advanceDraws` -/

@[simp] theorem advanceDraws_memory : (advanceDraws s).memory = s.memory := rfl
@[simp] theorem advanceDraws_v : (advanceDraws s).v = s.v := rfl
@[simp] theorem advanceDraws_i : (advanceDraws s).i = s.i := rfl
@[simp] theorem advanceDraws_pc : (advanceDraws s).pc = s.pc := rfl
@[simp] theorem advanceDraws_stack : (advanceDraws s).stack = s.stack := rfl
@[simp] theorem advanceDraws_display : (advanceDraws s).display = s.display := rfl
@[simp] theorem advanceDraws_delay : (advanceDraws s).delay = s.delay := rfl
@[simp] theorem advanceDraws_sound : (advanceDraws s).sound = s.sound := rfl
@[simp] theorem advanceDraws_keys : (advanceDraws s).keys = s.keys := rfl
@[simp] theorem advanceDraws_currentKey : (advanceDraws s).currentKey = s.currentKey := rfl
@[simp] theorem advanceDraws_badOpcode : (advanceDraws s).badOpcode = s.badOpcode := rfl
@[simp] theorem advanceDraws_draws : (advanceDraws s).draws = s.draws + 1 := rfl

/-! ### The state after reset -/

@[simp] theorem reset_memory : State.reset.memory = [] := rfl
@[simp] theorem reset_v : State.reset.v = Vector.replicate 16 0x00#8 := rfl
@[simp] theorem reset_i : State.reset.i = 0x0000#16 := rfl
@[simp] theorem reset_pc : State.reset.pc = 0x0200#16 := rfl
@[simp] theorem reset_stack : State.reset.stack = [] := rfl
@[simp] theorem reset_display : State.reset.display = Vector.replicate 2048 false := rfl
@[simp] theorem reset_delay : State.reset.delay = 0x00#8 := rfl
@[simp] theorem reset_sound : State.reset.sound = 0x00#8 := rfl
@[simp] theorem reset_keys : State.reset.keys = Vector.replicate 16 false := rfl
@[simp] theorem reset_currentKey : State.reset.currentKey = none := rfl
@[simp] theorem reset_badOpcode : State.reset.badOpcode = false := rfl

end Sys2Proof.Machine
end

