-- ==== Sys2Proof/Laws/Registers.lean ====
section
/-! SUPPORT. The register file, the key states and the call stack: what a read gives after a write, and
when the stack is full. -/

namespace Sys2Proof.Machine

/-! ### Registers -/

/-- Reading a register after writing one. -/
theorem getReg_setReg (v : Regs) (x r : Nibble) (b : Byte) :
    getReg (setReg x b v) r = if r = x then b else getReg v r := by
  by_cases h : r = x
  · subst h; simp [getReg, setReg]
  · have hn : x.toNat ≠ r.toNat := fun e => h (BitVec.eq_of_toNat_eq e.symm)
    simp [getReg, setReg, h, hn]

@[simp] theorem getReg_setReg_same (v : Regs) (x : Nibble) (b : Byte) :
    getReg (setReg x b v) x = b := by simp [getReg_setReg]

/-- Two register files with the same reads are equal. -/
theorem regs_ext {v w : Regs} (h : ∀ r, getReg v r = getReg w r) : v = w := by
  apply Vector.ext
  intro k hk
  have := h (BitVec.ofNat 4 k)
  have e : k % 16 = k := Nat.mod_eq_of_lt hk
  simpa [getReg, e] using this

/-- Reading a register of a state after writing one. -/
theorem readV_writeV (s : State) (x r : Nibble) (b : Byte) :
    readV (writeV x b s) r = if r = x then b else readV s r := getReg_setReg s.v x r b

@[simp] theorem readV_writeV_same (s : State) (x : Nibble) (b : Byte) :
    readV (writeV x b s) x = b := by simp [readV_writeV]

/-- Writing a flag is writing `VF`. -/
theorem readV_writeFlag (s : State) (r : Nibble) (f : Byte) :
    readV (writeFlag f s) r = if r = 0xF#4 then f else readV s r := readV_writeV s 0xF#4 r f

@[simp] theorem readV_writeI (s : State) (a : Word) (r : Nibble) : readV (writeI a s) r = readV s r := rfl
@[simp] theorem readV_writePc (s : State) (a : Word) (r : Nibble) : readV (writePc a s) r = readV s r := rfl
@[simp] theorem readV_writeStack (s : State) (st : Stack) (r : Nibble) :
    readV (writeStack st s) r = readV s r := rfl
@[simp] theorem readV_writeDisplay (s : State) (d : Display) (r : Nibble) :
    readV (writeDisplay d s) r = readV s r := rfl
@[simp] theorem readV_writeDelay (s : State) (b : Byte) (r : Nibble) : readV (writeDelay b s) r = readV s r := rfl
@[simp] theorem readV_writeSound (s : State) (b : Byte) (r : Nibble) : readV (writeSound b s) r = readV s r := rfl
@[simp] theorem readV_writeBadOpcode (s : State) (b : Bool) (r : Nibble) :
    readV (writeBadOpcode b s) r = readV s r := rfl
@[simp] theorem readV_writeMemory (s : State) (m : Memory) (r : Nibble) :
    readV (writeMemory m s) r = readV s r := rfl
@[simp] theorem readV_advanceDraws (s : State) (r : Nibble) : readV (advanceDraws s) r = readV s r := rfl

/-! ### Keys -/

/-- Reading a key state after writing one. -/
theorem getKey_setKey (ks : Keys) (k j : Nibble) (b : Bool) :
    getKey (setKey k b ks) j = if j = k then b else getKey ks j := by
  by_cases h : j = k
  · subst h; simp [getKey, setKey]
  · have hn : k.toNat ≠ j.toNat := fun e => h (BitVec.eq_of_toNat_eq e.symm)
    simp [getKey, setKey, h, hn]

/-! ### The call stack -/

/-- The stack is full exactly at a finite limit (R31). -/
theorem stackFull_iff (limit : StackLimit) (st : Stack) :
    stackFull limit st = true ↔ ∃ n, limit = some n ∧ st.length = n.val := by
  cases st with
  | nil =>
    constructor
    · intro h; cases h
    · rintro ⟨n, -, h⟩
      have := n.property
      rw [List.length_nil] at h
      omega
  | cons a st =>
    cases limit with
    | none => simp [stackFull]
    | some n =>
      simp only [stackFull, beq_iff_eq, Option.some.injEq, exists_eq_left', List.length_cons]
      exact eq_comm

end Sys2Proof.Machine
end

