-- ==== Sys2Proof/Laws/Exec.lean ====
section
/-! SUPPORT. What each handler answers, one equation per instruction; what RET, CALL and LD Vx, K can do;
and what Fetch, Execute and Step can do. Later proofs cite these and unfold no handler. -/

namespace Sys2Proof.Machine

variable (s : State)

/-! ### System -/

theorem exec_sys (nnn : Addr) : exec (.sys nnn) s = .next (writeBadOpcode true s) := rfl

/-! ### Control flow -/

theorem exec_ret_nil (h : s.stack = []) : exec .ret s = .fault .stackUnderflow := by
  show execRet s = _
  rw [execRet, h]
  rfl

theorem exec_ret_cons (a : Word) (st : Stack) (h : s.stack = a :: st) :
    exec .ret s = .next (writePc a (writeStack st s)) := by
  show execRet s = _
  rw [execRet, h]

/-- RET answers a next state exactly when something is on the stack (R120). -/
theorem exec_ret_next {s t : State} (h : exec .ret s = .next t) :
    ∃ a st, s.stack = a :: st ∧ t = writePc a (writeStack st s) := by
  cases e : s.stack with
  | nil => rw [exec_ret_nil s e] at h; cases h
  | cons a st =>
    rw [exec_ret_cons s a st e] at h
    cases h
    exact ⟨a, st, rfl, rfl⟩

theorem exec_jp (nnn : Addr) : exec (.jp nnn) s = .next (writePc (nnn.setWidth 16) s) := rfl

theorem exec_call (nnn : Addr) : exec (.call nnn) s = callWithin Config.stackMax nnn s := rfl

theorem callWithin_full {limit : StackLimit} (nnn : Addr) (h : stackFull limit s.stack = true) :
    callWithin limit nnn s = .fault .stackOverflow := by
  rw [callWithin, if_pos h]
  rfl

theorem callWithin_room {limit : StackLimit} (nnn : Addr) (h : stackFull limit s.stack = false) :
    callWithin limit nnn s = .next (writePc (nnn.setWidth 16) (writeStack (s.pc :: s.stack) s)) := by
  rw [callWithin, if_neg (by simp [h])]

/-- CALL answers a next state exactly when the stack is not full (R122). -/
theorem callWithin_next {limit : StackLimit} {nnn : Addr} {s t : State}
    (h : callWithin limit nnn s = .next t) :
    stackFull limit s.stack = false ∧
      t = writePc (nnn.setWidth 16) (writeStack (s.pc :: s.stack) s) := by
  cases e : stackFull limit s.stack with
  | true => rw [callWithin_full s nnn e] at h; cases h
  | false =>
    rw [callWithin_room s nnn e] at h
    cases h
    exact ⟨rfl, rfl⟩

/-- A skip is a write of `pc` or nothing (R128). -/
theorem skipIf_eq (c : Bool) : skipIf c s = writePc (if c then s.pc + 2#16 else s.pc) s := by
  cases c <;> rfl

theorem exec_seImm (x : Nibble) (nn : Byte) : exec (.seImm x nn) s = .next (skipIf (readV s x == nn) s) := rfl

theorem exec_sneImm (x : Nibble) (nn : Byte) : exec (.sneImm x nn) s = .next (skipIf (readV s x != nn) s) := rfl

theorem exec_seReg (x y : Nibble) : exec (.seReg x y) s = .next (skipIf (readV s x == readV s y) s) := rfl

theorem exec_sneReg (x y : Nibble) : exec (.sneReg x y) s = .next (skipIf (readV s x != readV s y) s) := rfl

theorem exec_jpV0 (nnn : Addr) :
    exec (.jpV0 nnn) s = .next (writePc (indexedTarget nnn (readV s 0x0#4) &&& 0x0FFF#16) s) := rfl

/-! ### Registers -/

theorem exec_ldImm (x : Nibble) (nn : Byte) : exec (.ldImm x nn) s = .next (writeV x nn s) := rfl

theorem exec_addImm (x : Nibble) (nn : Byte) : exec (.addImm x nn) s = .next (writeV x (readV s x + nn) s) := rfl

theorem exec_ldReg (x y : Nibble) : exec (.ldReg x y) s = .next (writeV x (readV s y) s) := rfl

theorem exec_orReg (x y : Nibble) : exec (.orReg x y) s = .next (writeV x (readV s x ||| readV s y) s) := rfl

theorem exec_andReg (x y : Nibble) : exec (.andReg x y) s = .next (writeV x (readV s x &&& readV s y) s) := rfl

theorem exec_xorReg (x y : Nibble) : exec (.xorReg x y) s = .next (writeV x (readV s x ^^^ readV s y) s) := rfl

theorem exec_addReg (x y : Nibble) :
    exec (.addReg x y) s = .next (resultThenFlag x (readV s x + readV s y)
      (flagByte (carryOf (readV s x) (readV s y))) s) := rfl

theorem exec_subReg (x y : Nibble) :
    exec (.subReg x y) s = .next (resultThenFlag x (readV s x - readV s y)
      (flagByte (notBorrowOf (readV s x) (readV s y))) s) := rfl

theorem exec_shrReg (x y : Nibble) :
    exec (.shrReg x y) s = .next (flagThenResult x (readV s y >>> 1) (lowBitOf (readV s y)) s) := rfl

theorem exec_subnReg (x y : Nibble) :
    exec (.subnReg x y) s = .next (resultThenFlag x (readV s y - readV s x)
      (flagByte (notBorrowOf (readV s y) (readV s x))) s) := rfl

theorem exec_shlReg (x y : Nibble) :
    exec (.shlReg x y) s = .next (flagThenResult x (readV s y <<< 1) (highBitOf (readV s y)) s) := rfl

theorem exec_rnd (x : Nibble) (nn : Byte) :
    exec (.rnd x nn) s = .next (advanceDraws (writeV x (Config.randByte s.draws &&& nn) s)) := rfl

/-- Result then flag: the flag stands in `VF`, whatever the destination (R146). -/
theorem readV_resultThenFlag (x r : Nibble) (a f : Byte) :
    readV (resultThenFlag x a f s) r = if r = 0xF#4 then f else if r = x then a else readV s r := by
  rw [resultThenFlag, readV_writeFlag, readV_writeV]

/-- Flag then result: the result stands in its destination, `VF` too (R148). -/
theorem readV_flagThenResult (x r : Nibble) (a f : Byte) :
    readV (flagThenResult x a f s) r = if r = x then a else if r = 0xF#4 then f else readV s r := by
  rw [flagThenResult, readV_writeV, readV_writeFlag]

/-- Both orders write registers only. -/
theorem resultThenFlag_frame (x : Nibble) (a f : Byte) :
    resultThenFlag x a f s = { s with v := (resultThenFlag x a f s).v } := rfl

theorem flagThenResult_frame (x : Nibble) (a f : Byte) :
    flagThenResult x a f s = { s with v := (flagThenResult x a f s).v } := rfl

/-! ### Index and memory -/

theorem exec_ldI (nnn : Addr) : exec (.ldI nnn) s = .next (writeI (nnn.setWidth 16) s) := rfl

theorem exec_addI (x : Nibble) : exec (.addI x) s = .next (writeI (s.i + (readV s x).setWidth 16) s) := rfl

theorem exec_ldF (x : Nibble) : exec (.ldF x) s = .next (writeI (glyphAddr Config.fontBase (readV s x)) s) := rfl

theorem exec_ldB (x : Nibble) :
    exec (.ldB x) s =
      .next (writeMemory (memWriteBytes (dataAddr s.i 0) (decimalDigits (readV s x)) s.memory) s) := rfl

theorem exec_storeRegs (x : Nibble) :
    exec (.storeRegs x) s = .next (writeI (advancedI s.i x)
      (writeMemory (memWriteBytes (dataAddr s.i 0) (firstRegs s.v (x.toNat + 1)) s.memory) s)) := rfl

theorem exec_loadRegs (x : Nibble) :
    exec (.loadRegs x) s = .next (writeI (advancedI s.i x)
      (writeRegs (loadFirstRegs s.memory s.i (x.toNat + 1) s.v) s)) := rfl

/-! ### Display -/

theorem exec_cls : exec .cls s = .next (writeDisplay (Vector.replicate 2048 false) s) := rfl

/-- The display and the collision that a DRW of this state makes. -/
def drawn (x y n : Nibble) : Display × Bool :=
  drawRows (originX (readV s x)) (originY (readV s y)) (spriteBytes s.memory s.i n.toNat) (s.display, false)

theorem exec_drw (x y n : Nibble) :
    exec (.drw x y n) s =
      .next (writeDisplay (drawn s x y n).1 (writeFlag (flagByte (drawn s x y n).2) s)) := rfl

/-! ### Keypad and timers -/

theorem exec_skp (x : Nibble) :
    exec (.skp x) s = .next (skipIf (getKey s.keys (lowNibble (readV s x))) s) := rfl

theorem exec_sknp (x : Nibble) :
    exec (.sknp x) s = .next (skipIf (!getKey s.keys (lowNibble (readV s x))) s) := rfl

theorem exec_ldVxDT (x : Nibble) : exec (.ldVxDT x) s = .next (writeV x s.delay s) := rfl

theorem exec_ldVxK_none (x : Nibble) (h : s.currentKey = none) :
    exec (.ldVxK x) s = .next (writePc (s.pc - 2#16) s) := by
  show execLdVxK x s = _
  rw [execLdVxK, h]

theorem exec_ldVxK_some (x : Nibble) (k : Nibble) (h : s.currentKey = some k) :
    exec (.ldVxK x) s = .next (writeV x (k.setWidth 8) s) := by
  show execLdVxK x s = _
  rw [execLdVxK, h]

/-- What LD Vx, K can do (R202). -/
theorem exec_ldVxK_next {x : Nibble} {s t : State} (h : exec (.ldVxK x) s = .next t) :
    (s.currentKey = none ∧ t = writePc (s.pc - 2#16) s) ∨
      ∃ k, s.currentKey = some k ∧ t = writeV x (k.setWidth 8) s := by
  cases e : s.currentKey with
  | none => rw [exec_ldVxK_none s x e] at h; cases h; exact .inl ⟨rfl, rfl⟩
  | some k => rw [exec_ldVxK_some s x k e] at h; cases h; exact .inr ⟨k, rfl, rfl⟩

theorem exec_ldDTVx (x : Nibble) : exec (.ldDTVx x) s = .next (writeDelay (readV s x) s) := rfl

theorem exec_ldSTVx (x : Nibble) : exec (.ldSTVx x) s = .next (writeSound (readV s x) s) := rfl

/-! ### Fetch, Execute, Step -/

theorem fetch_out (h : 0x0FFE < s.pc.toNat) : fetch s = .fault (.fetchOutOfRange s.pc) := if_pos h

theorem fetch_in (h : s.pc.toNat ≤ 0x0FFE) :
    fetch s = .next (memReadOpcode s.memory s.pc.toNat, writePc (s.pc + 2#16) s) :=
  if_neg (Nat.not_lt.2 h)

theorem step_out (h : 0x0FFE < s.pc.toNat) : step s = .fault (.fetchOutOfRange s.pc) := by
  rw [step, fetchExecute, fetch_out s h]

theorem step_in (h : s.pc.toNat ≤ 0x0FFE) :
    step s = execute (memReadOpcode s.memory s.pc.toNat) (writePc (s.pc + 2#16) s) := by
  rw [step, fetchExecute, fetch_in s h]

/-- A Step that answers a next state fetched in range and ran the fetched word (R107). -/
theorem step_next {s t : State} (h : step s = .next t) :
    s.pc.toNat ≤ 0x0FFE ∧
      execute (memReadOpcode s.memory s.pc.toNat) (writePc (s.pc + 2#16) s) = .next t := by
  by_cases g : 0x0FFE < s.pc.toNat
  · rw [step_out s g] at h; cases h
  · have g : s.pc.toNat ≤ 0x0FFE := by omega
    exact ⟨g, by rw [← h, step_in s g]⟩

theorem execute_instr {op : Word} {i : Instr} (h : decode op = .instr i) :
    execute op s = exec i (writeBadOpcode false s) := by
  rw [execute, h]
  rfl

theorem execute_unknown {op w : Word} (h : decode op = .unknown w) :
    execute op s = .next (writeBadOpcode true s) := by
  rw [execute, h]
  rfl

/-- An Execute that answers a next state ran one instruction's handler, or `Unknown`'s (R103, R104). -/
theorem execute_next {op : Word} {s t : State} (h : execute op s = .next t) :
    (∃ i, decode op = .instr i ∧ exec i (writeBadOpcode false s) = .next t) ∨
      (∃ w, decode op = .unknown w ∧ t = writeBadOpcode true s) := by
  cases e : decode op with
  | instr i => rw [execute_instr s e] at h; exact .inl ⟨i, rfl, h⟩
  | unknown w => rw [execute_unknown s e] at h; cases h; exact .inr ⟨w, rfl, rfl⟩

end Sys2Proof.Machine
end

