-- ==== Sys2Proof/Laws/Encoding.lean ====
section
/-! SUPPORT. The fields of the encoding formats, and an opcode put together again from its fields and from
its bytes (spec/30_encoding.md R71, spec/20_memory.md R55). -/

namespace Sys2Proof

/-! ### Fields of a word built by a format -/

theorem fieldMajor_formNNN (m : Nibble) (n : Addr) : fieldMajor (formNNN m n) = m := by
  apply BitVec.eq_of_getLsbD_eq
  intro i hi
  simp only [fieldMajor, formNNN, BitVec.getLsbD_extractLsb', BitVec.getLsbD_append, hi, decide_true, Bool.true_and,
    show ¬ 12 + i < 12 by omega, if_false, Nat.add_sub_cancel_left]

theorem fieldNNN_formNNN (m : Nibble) (n : Addr) : fieldNNN (formNNN m n) = n := by
  apply BitVec.eq_of_getLsbD_eq
  intro i hi
  simp only [fieldNNN, formNNN, BitVec.getLsbD_extractLsb', BitVec.getLsbD_append, hi, decide_true, Bool.true_and,
    Nat.zero_add, if_true]

theorem fieldMajor_formXNN (m x : Nibble) (n : Byte) : fieldMajor (formXNN m x n) = m := by
  apply BitVec.eq_of_getLsbD_eq
  intro i hi
  simp only [fieldMajor, formXNN, BitVec.getLsbD_extractLsb', BitVec.getLsbD_append, hi, decide_true, Bool.true_and,
    show ¬ 12 + i < 8 by omega, show ¬ 12 + i - 8 < 4 by omega, if_false, show 12 + i - 8 - 4 = i by omega]

theorem fieldX_formXNN (m x : Nibble) (n : Byte) : fieldX (formXNN m x n) = x := by
  apply BitVec.eq_of_getLsbD_eq
  intro i hi
  simp only [fieldX, formXNN, BitVec.getLsbD_extractLsb', BitVec.getLsbD_append, hi, decide_true, Bool.true_and,
    show ¬ 8 + i < 8 by omega, if_false, show 8 + i - 8 = i by omega, if_true]

theorem fieldNN_formXNN (m x : Nibble) (n : Byte) : fieldNN (formXNN m x n) = n := by
  apply BitVec.eq_of_getLsbD_eq
  intro i hi
  simp only [fieldNN, formXNN, BitVec.getLsbD_extractLsb', BitVec.getLsbD_append, hi, decide_true, Bool.true_and,
    Nat.zero_add, if_true]

theorem fieldMajor_formXYN (m x y n : Nibble) : fieldMajor (formXYN m x y n) = m := by
  apply BitVec.eq_of_getLsbD_eq
  intro i hi
  simp only [fieldMajor, formXYN, BitVec.getLsbD_extractLsb', BitVec.getLsbD_append, hi, decide_true, Bool.true_and,
    show ¬ 12 + i < 4 by omega, show ¬ 12 + i - 4 < 4 by omega, show ¬ 12 + i - 4 - 4 < 4 by omega, if_false,
    show 12 + i - 4 - 4 - 4 = i by omega]

theorem fieldX_formXYN (m x y n : Nibble) : fieldX (formXYN m x y n) = x := by
  apply BitVec.eq_of_getLsbD_eq
  intro i hi
  simp only [fieldX, formXYN, BitVec.getLsbD_extractLsb', BitVec.getLsbD_append, hi, decide_true, Bool.true_and,
    show ¬ 8 + i < 4 by omega, show ¬ 8 + i - 4 < 4 by omega, if_false, show 8 + i - 4 - 4 = i by omega, if_true]

theorem fieldY_formXYN (m x y n : Nibble) : fieldY (formXYN m x y n) = y := by
  apply BitVec.eq_of_getLsbD_eq
  intro i hi
  simp only [fieldY, formXYN, BitVec.getLsbD_extractLsb', BitVec.getLsbD_append, hi, decide_true, Bool.true_and,
    show ¬ 4 + i < 4 by omega, if_false, show 4 + i - 4 = i by omega, if_true]

theorem fieldN_formXYN (m x y n : Nibble) : fieldN (formXYN m x y n) = n := by
  apply BitVec.eq_of_getLsbD_eq
  intro i hi
  simp only [fieldN, formXYN, BitVec.getLsbD_extractLsb', BitVec.getLsbD_append, hi, decide_true, Bool.true_and,
    Nat.zero_add, if_true]

/-! ### A word put together again from its fields -/

theorem formNNN_fields (op : Word) : formNNN (fieldMajor op) (fieldNNN op) = op := by
  apply BitVec.eq_of_getLsbD_eq
  intro i hi
  simp only [formNNN, fieldMajor, fieldNNN, BitVec.getLsbD_append, BitVec.getLsbD_extractLsb']
  split
  · next h => simp [h]
  · next h => simp [show i - 12 < 4 by omega, show 12 + (i - 12) = i by omega]

theorem formXNN_fields (op : Word) : formXNN (fieldMajor op) (fieldX op) (fieldNN op) = op := by
  apply BitVec.eq_of_getLsbD_eq
  intro i hi
  simp only [formXNN, fieldMajor, fieldX, fieldNN, BitVec.getLsbD_append, BitVec.getLsbD_extractLsb']
  split
  · next h => simp [h]
  · split
    · next h1 h2 => simp [h2, show 8 + (i - 8) = i by omega]
    · next h1 h2 => simp [show i - 8 - 4 < 4 by omega, show 12 + (i - 8 - 4) = i by omega]

theorem formXYN_fields (op : Word) :
    formXYN (fieldMajor op) (fieldX op) (fieldY op) (fieldN op) = op := by
  apply BitVec.eq_of_getLsbD_eq
  intro i hi
  simp only [formXYN, fieldMajor, fieldX, fieldY, fieldN, BitVec.getLsbD_append, BitVec.getLsbD_extractLsb']
  split
  · next h => simp [h]
  · split
    · next h1 h2 => simp [h2, show 4 + (i - 4) = i by omega]
    · split
      · next h1 h2 h3 => simp [h3, show 8 + (i - 4 - 4) = i by omega]
      · next h1 h2 h3 => simp [show i - 4 - 4 - 4 < 4 by omega, show 12 + (i - 4 - 4 - 4) = i by omega]

/-- The low byte's last nibble is the last nibble. -/
theorem fieldN_formXNN (m x : Nibble) (n : Byte) : fieldN (formXNN m x n) = n.extractLsb' 0 4 := by
  apply BitVec.eq_of_getLsbD_eq
  intro i hi
  simp only [fieldN, formXNN, BitVec.getLsbD_extractLsb', BitVec.getLsbD_append, hi, decide_true, Bool.true_and,
    Nat.zero_add, show i < 8 by omega, if_true]

/-! ### Bytes -/

@[simp] theorem highByte_opcodeOfBytes (hi lo : Byte) : highByte (opcodeOfBytes hi lo) = hi := by
  apply BitVec.eq_of_getLsbD_eq
  intro i h
  simp only [highByte, opcodeOfBytes, BitVec.getLsbD_extractLsb', BitVec.getLsbD_append, h, decide_true,
    Bool.true_and, show ¬ 8 + i < 8 by omega, if_false, Nat.add_sub_cancel_left]

@[simp] theorem lowByte_opcodeOfBytes (hi lo : Byte) : lowByte (opcodeOfBytes hi lo) = lo := by
  apply BitVec.eq_of_getLsbD_eq
  intro i h
  simp only [lowByte, opcodeOfBytes, BitVec.getLsbD_extractLsb', BitVec.getLsbD_append, h, decide_true,
    Bool.true_and, Nat.zero_add, if_true]

@[simp] theorem opcodeOfBytes_bytes (op : Word) : opcodeOfBytes (highByte op) (lowByte op) = op := by
  apply BitVec.eq_of_getLsbD_eq
  intro i hi
  simp only [opcodeOfBytes, highByte, lowByte, BitVec.getLsbD_append, BitVec.getLsbD_extractLsb']
  split
  · next h => simp [h]
  · next h => simp [show i - 8 < 8 by omega, show 8 + (i - 8) = i by omega]

/-- Decoding the two bytes of an instruction is decoding its word, with nothing left over (R70). -/
theorem decodeBytes_encodeBytes (i : Instr) :
    decodeBytes (encodeBytes i) = some (decode (encode i), []) := by
  simp [decodeBytes, encodeBytes]

/-- Words with the same high and low byte are equal. -/
theorem word_ext_bytes {a b : Word} (hh : highByte a = highByte b) (hl : lowByte a = lowByte b) : a = b := by
  rw [← opcodeOfBytes_bytes a, ← opcodeOfBytes_bytes b, hh, hl]

end Sys2Proof
end

