-- ==== Sys2Proof/Laws/PerInstr.lean ====
section
/-! SUPPORT. Statements about every instruction as syntax, one lemma per constructor: the word of a
well-formed instruction matches its kind's row of the opcode table (spec/30_encoding.md R82). -/

namespace Sys2Proof

/-! ### Masking a word built by a format -/

theorem formNNN_mask (m : Nibble) (n : Addr) : formNNN m n &&& 0xF000#16 = formNNN m 0#12 := by
  apply BitVec.eq_of_getLsbD_eq
  intro i hi
  simp only [formNNN, BitVec.getLsbD_and, BitVec.getLsbD_append]
  interval_cases i <;> simp

theorem formXNN_mask (m x : Nibble) (n : Byte) : formXNN m x n &&& 0xF000#16 = formXNN m 0#4 0#8 := by
  apply BitVec.eq_of_getLsbD_eq
  intro i hi
  simp only [formXNN, BitVec.getLsbD_and, BitVec.getLsbD_append]
  interval_cases i <;> simp

theorem formXNN_maskFF (m x : Nibble) (n : Byte) : formXNN m x n &&& 0xF0FF#16 = formXNN m 0#4 n := by
  apply BitVec.eq_of_getLsbD_eq
  intro i hi
  simp only [formXNN, BitVec.getLsbD_and, BitVec.getLsbD_append]
  interval_cases i <;> simp

theorem formXYN_mask (m x y n : Nibble) : formXYN m x y n &&& 0xF000#16 = formXYN m 0#4 0#4 0#4 := by
  apply BitVec.eq_of_getLsbD_eq
  intro i hi
  simp only [formXYN, BitVec.getLsbD_and, BitVec.getLsbD_append]
  interval_cases i <;> simp

theorem formXYN_maskN (m x y n : Nibble) : formXYN m x y n &&& 0xF00F#16 = formXYN m 0#4 0#4 n := by
  apply BitVec.eq_of_getLsbD_eq
  intro i hi
  simp only [formXYN, BitVec.getLsbD_and, BitVec.getLsbD_append]
  interval_cases i <;> simp

/-! ### The family -/

/-- The word of a well-formed instruction is selected by its own kind's row. -/
def Laws.RowMatches.Statement (i : Instr) : Prop :=
  WellFormed i → selects (kindOfInstr i) (encode i) = true

/-- A row of a kind other than `0NNN` selects every word it matches. -/
theorem selects_of_matches {k : Kind} {op : Word} (hk : k ≠ .k0NNN) (h : op &&& kindMask k = kindMatch k) :
    selects k op = true := by
  have : (k != .k0NNN) = true := by simp [hk]
  simp [selects, matchesRow, h, this]

theorem Laws.RowMatches.cls :
    Laws.RowMatches.Statement (.cls) := fun _ => by decide

theorem Laws.RowMatches.ret :
    Laws.RowMatches.Statement (.ret) := fun _ => by decide

theorem Laws.RowMatches.sys (nnn : Addr) :
    Laws.RowMatches.Statement (.sys nnn) := by
  intro h
  have h1 : formNNN 0x0#4 nnn ≠ 0x00E0#16 := fun e => h.1 (by
    rw [← fieldNNN_formNNN 0x0#4 nnn, e]
    rfl)
  have h2 : formNNN 0x0#4 nnn ≠ 0x00EE#16 := fun e => h.2 (by
    rw [← fieldNNN_formNNN 0x0#4 nnn, e]
    rfl)
  have h3 : formNNN 0x0#4 nnn &&& 0xF000#16 = 0x0000#16 := (formNNN_mask _ _).trans rfl
  simp [kindOfInstr, encode, selects, matchesRow, kindMask, kindMatch, h1, h2, h3]

theorem Laws.RowMatches.jp (nnn : Addr) :
    Laws.RowMatches.Statement (.jp nnn) := fun _ =>
  selects_of_matches (by simp [kindOfInstr]) ((formNNN_mask _ _).trans rfl)

theorem Laws.RowMatches.call (nnn : Addr) :
    Laws.RowMatches.Statement (.call nnn) := fun _ =>
  selects_of_matches (by simp [kindOfInstr]) ((formNNN_mask _ _).trans rfl)

theorem Laws.RowMatches.seImm (x : Nibble) (nn : Byte) :
    Laws.RowMatches.Statement (.seImm x nn) := fun _ =>
  selects_of_matches (by simp [kindOfInstr]) ((formXNN_mask _ _ _).trans rfl)

theorem Laws.RowMatches.sneImm (x : Nibble) (nn : Byte) :
    Laws.RowMatches.Statement (.sneImm x nn) := fun _ =>
  selects_of_matches (by simp [kindOfInstr]) ((formXNN_mask _ _ _).trans rfl)

theorem Laws.RowMatches.seReg (x y : Nibble) :
    Laws.RowMatches.Statement (.seReg x y) := fun _ =>
  selects_of_matches (by simp [kindOfInstr]) ((formXYN_maskN _ _ _ _).trans rfl)

theorem Laws.RowMatches.ldImm (x : Nibble) (nn : Byte) :
    Laws.RowMatches.Statement (.ldImm x nn) := fun _ =>
  selects_of_matches (by simp [kindOfInstr]) ((formXNN_mask _ _ _).trans rfl)

theorem Laws.RowMatches.addImm (x : Nibble) (nn : Byte) :
    Laws.RowMatches.Statement (.addImm x nn) := fun _ =>
  selects_of_matches (by simp [kindOfInstr]) ((formXNN_mask _ _ _).trans rfl)

theorem Laws.RowMatches.ldReg (x y : Nibble) :
    Laws.RowMatches.Statement (.ldReg x y) := fun _ =>
  selects_of_matches (by simp [kindOfInstr]) ((formXYN_maskN _ _ _ _).trans rfl)

theorem Laws.RowMatches.orReg (x y : Nibble) :
    Laws.RowMatches.Statement (.orReg x y) := fun _ =>
  selects_of_matches (by simp [kindOfInstr]) ((formXYN_maskN _ _ _ _).trans rfl)

theorem Laws.RowMatches.andReg (x y : Nibble) :
    Laws.RowMatches.Statement (.andReg x y) := fun _ =>
  selects_of_matches (by simp [kindOfInstr]) ((formXYN_maskN _ _ _ _).trans rfl)

theorem Laws.RowMatches.xorReg (x y : Nibble) :
    Laws.RowMatches.Statement (.xorReg x y) := fun _ =>
  selects_of_matches (by simp [kindOfInstr]) ((formXYN_maskN _ _ _ _).trans rfl)

theorem Laws.RowMatches.addReg (x y : Nibble) :
    Laws.RowMatches.Statement (.addReg x y) := fun _ =>
  selects_of_matches (by simp [kindOfInstr]) ((formXYN_maskN _ _ _ _).trans rfl)

theorem Laws.RowMatches.subReg (x y : Nibble) :
    Laws.RowMatches.Statement (.subReg x y) := fun _ =>
  selects_of_matches (by simp [kindOfInstr]) ((formXYN_maskN _ _ _ _).trans rfl)

theorem Laws.RowMatches.shrReg (x y : Nibble) :
    Laws.RowMatches.Statement (.shrReg x y) := fun _ =>
  selects_of_matches (by simp [kindOfInstr]) ((formXYN_maskN _ _ _ _).trans rfl)

theorem Laws.RowMatches.subnReg (x y : Nibble) :
    Laws.RowMatches.Statement (.subnReg x y) := fun _ =>
  selects_of_matches (by simp [kindOfInstr]) ((formXYN_maskN _ _ _ _).trans rfl)

theorem Laws.RowMatches.shlReg (x y : Nibble) :
    Laws.RowMatches.Statement (.shlReg x y) := fun _ =>
  selects_of_matches (by simp [kindOfInstr]) ((formXYN_maskN _ _ _ _).trans rfl)

theorem Laws.RowMatches.sneReg (x y : Nibble) :
    Laws.RowMatches.Statement (.sneReg x y) := fun _ =>
  selects_of_matches (by simp [kindOfInstr]) ((formXYN_maskN _ _ _ _).trans rfl)

theorem Laws.RowMatches.ldI (nnn : Addr) :
    Laws.RowMatches.Statement (.ldI nnn) := fun _ =>
  selects_of_matches (by simp [kindOfInstr]) ((formNNN_mask _ _).trans rfl)

theorem Laws.RowMatches.jpV0 (nnn : Addr) :
    Laws.RowMatches.Statement (.jpV0 nnn) := fun _ =>
  selects_of_matches (by simp [kindOfInstr]) ((formNNN_mask _ _).trans rfl)

theorem Laws.RowMatches.rnd (x : Nibble) (nn : Byte) :
    Laws.RowMatches.Statement (.rnd x nn) := fun _ =>
  selects_of_matches (by simp [kindOfInstr]) ((formXNN_mask _ _ _).trans rfl)

theorem Laws.RowMatches.drw (x y n : Nibble) :
    Laws.RowMatches.Statement (.drw x y n) := fun _ =>
  selects_of_matches (by simp [kindOfInstr]) ((formXYN_mask _ _ _ _).trans rfl)

theorem Laws.RowMatches.skp (x : Nibble) :
    Laws.RowMatches.Statement (.skp x) := fun _ =>
  selects_of_matches (by simp [kindOfInstr]) ((formXNN_maskFF _ _ _).trans rfl)

theorem Laws.RowMatches.sknp (x : Nibble) :
    Laws.RowMatches.Statement (.sknp x) := fun _ =>
  selects_of_matches (by simp [kindOfInstr]) ((formXNN_maskFF _ _ _).trans rfl)

theorem Laws.RowMatches.ldVxDT (x : Nibble) :
    Laws.RowMatches.Statement (.ldVxDT x) := fun _ =>
  selects_of_matches (by simp [kindOfInstr]) ((formXNN_maskFF _ _ _).trans rfl)

theorem Laws.RowMatches.ldVxK (x : Nibble) :
    Laws.RowMatches.Statement (.ldVxK x) := fun _ =>
  selects_of_matches (by simp [kindOfInstr]) ((formXNN_maskFF _ _ _).trans rfl)

theorem Laws.RowMatches.ldDTVx (x : Nibble) :
    Laws.RowMatches.Statement (.ldDTVx x) := fun _ =>
  selects_of_matches (by simp [kindOfInstr]) ((formXNN_maskFF _ _ _).trans rfl)

theorem Laws.RowMatches.ldSTVx (x : Nibble) :
    Laws.RowMatches.Statement (.ldSTVx x) := fun _ =>
  selects_of_matches (by simp [kindOfInstr]) ((formXNN_maskFF _ _ _).trans rfl)

theorem Laws.RowMatches.addI (x : Nibble) :
    Laws.RowMatches.Statement (.addI x) := fun _ =>
  selects_of_matches (by simp [kindOfInstr]) ((formXNN_maskFF _ _ _).trans rfl)

theorem Laws.RowMatches.ldF (x : Nibble) :
    Laws.RowMatches.Statement (.ldF x) := fun _ =>
  selects_of_matches (by simp [kindOfInstr]) ((formXNN_maskFF _ _ _).trans rfl)

theorem Laws.RowMatches.ldB (x : Nibble) :
    Laws.RowMatches.Statement (.ldB x) := fun _ =>
  selects_of_matches (by simp [kindOfInstr]) ((formXNN_maskFF _ _ _).trans rfl)

theorem Laws.RowMatches.storeRegs (x : Nibble) :
    Laws.RowMatches.Statement (.storeRegs x) := fun _ =>
  selects_of_matches (by simp [kindOfInstr]) ((formXNN_maskFF _ _ _).trans rfl)

theorem Laws.RowMatches.loadRegs (x : Nibble) :
    Laws.RowMatches.Statement (.loadRegs x) := fun _ =>
  selects_of_matches (by simp [kindOfInstr]) ((formXNN_maskFF _ _ _).trans rfl)

end Sys2Proof
end

