-- ==== Sys2Proof/Laws/Memory.lean ====
section
/-! SUPPORT. The memory store: a read after a write, the canonical form kept by every operation, and
equality of memories from equality of reads. -/

namespace Sys2Proof.Machine

/-! ### Reads after writes -/

theorem lookupCell_listCell (a a' : Nat) (b : Byte) (m : Memory) (h : lookupCell m a = resetByte a) :
    lookupCell (listCell a b m) a' = if a' = a then b else lookupCell m a' := by
  unfold listCell
  split
  · next hb => split <;> simp_all
  · next hb => simp [lookupCell, eq_comm]

/-- An address below every listed one is unlisted. -/
theorem lookupCell_of_lt (m : Memory) (a : Nat) (h : ∀ c ∈ m, a < c.1) : lookupCell m a = resetByte a := by
  induction m with
  | nil => rfl
  | cons c m ih =>
    obtain ⟨k, b⟩ := c
    have hk : a < k := h (k, b) (by simp)
    have : k ≠ a := by omega
    simp only [lookupCell, this, if_false]
    exact ih fun d hd => h d (by simp [hd])

/-- A put replaces one byte and no other, in a memory of the canonical form. -/
theorem lookupCell_putCell (a a' : Nat) (b : Byte) (m : Memory)
    (hm : m.Pairwise (fun c d => c.1 < d.1)) :
    lookupCell (putCell a b m) a' = if a' = a then b else lookupCell m a' := by
  induction m with
  | nil => exact lookupCell_listCell a a' b [] rfl
  | cons c m ih =>
    obtain ⟨k, d⟩ := c
    rw [List.pairwise_cons] at hm
    obtain ⟨hlt, hm⟩ := hm
    simp only [putCell]
    split
    · next h =>
      apply lookupCell_listCell
      apply lookupCell_of_lt
      intro c hc
      rcases List.mem_cons.1 hc with rfl | hc
      · exact h
      · exact Nat.lt_trans h (hlt c hc)
    · split
      · next h1 h2 =>
        subst h2
        rw [lookupCell_listCell _ _ _ _ (lookupCell_of_lt m a hlt)]
        by_cases e : a' = a
        · simp [e]
        · have : a ≠ a' := fun h => e h.symm
          simp [e, lookupCell, this]
      · next h1 h2 =>
        simp only [lookupCell, ih hm]
        by_cases e : a' = a
        · subst e
          have : k ≠ a' := fun h => h2 h.symm
          simp [this]
        · simp [e]

/-- A read after a write, at any two addresses (R52, R53). -/
theorem memRead_memWrite (m : Memory) (hm : m.wf) (a a' : Nat) (b : Byte) :
    memRead (memWrite a b m) a' = if a' % memSize = a % memSize then b else memRead m a' :=
  lookupCell_putCell _ _ _ _ hm.1

theorem memRead_mod (m : Memory) (a : Nat) : memRead m (a % memSize) = memRead m a := by
  simp [memRead]

/-! ### The canonical form -/

theorem wf_listCell {a : Nat} {b : Byte} {m : Memory} (hm : m.wf) (ha : a < memSize)
    (h : ∀ c ∈ m, a < c.1) : (listCell a b m).wf := by
  unfold listCell
  split
  · exact hm
  · next hb =>
    refine ⟨List.pairwise_cons.2 ⟨h, hm.1⟩, ?_⟩
    intro c hc
    rcases List.mem_cons.1 hc with rfl | hc
    · exact ⟨ha, hb⟩
    · exact hm.2 c hc

theorem wf_tail {c : Host.Cell} {m : Memory} (hm : Memory.wf (c :: m)) : m.wf :=
  ⟨(List.pairwise_cons.1 hm.1).2, fun d hd => hm.2 d (List.mem_cons_of_mem _ hd)⟩

/-- Every address of a put is the one put or was listed. -/
theorem mem_putCell {a : Nat} {b : Byte} {m : Memory} {c : Host.Cell} (h : c ∈ putCell a b m) :
    c.1 = a ∨ c ∈ m := by
  induction m with
  | nil =>
    simp only [putCell, listCell] at h
    split at h <;> simp_all
  | cons d m ih =>
    obtain ⟨k, e⟩ := d
    simp only [putCell, listCell] at h
    split at h
    · split at h
      · exact .inr h
      · rcases List.mem_cons.1 h with rfl | h
        · exact .inl rfl
        · exact .inr h
    · split at h
      · split at h
        · exact .inr (List.mem_cons_of_mem _ h)
        · rcases List.mem_cons.1 h with rfl | h
          · exact .inl rfl
          · exact .inr (List.mem_cons_of_mem _ h)
      · rcases List.mem_cons.1 h with rfl | h
        · exact .inr (List.mem_cons_self ..)
        · rcases ih h with h | h
          · exact .inl h
          · exact .inr (List.mem_cons_of_mem _ h)

theorem wf_putCell {a : Nat} {b : Byte} {m : Memory} (hm : m.wf) (ha : a < memSize) :
    (putCell a b m).wf := by
  induction m with
  | nil => exact wf_listCell hm ha (by simp)
  | cons c m ih =>
    obtain ⟨k, e⟩ := c
    have hlt := (List.pairwise_cons.1 hm.1).1
    simp only [putCell]
    split
    · next h =>
      apply wf_listCell hm ha
      intro d hd
      rcases List.mem_cons.1 hd with rfl | hd
      · exact h
      · exact Nat.lt_trans h (hlt d hd)
    · split
      · next h1 h2 =>
        subst h2
        exact wf_listCell (wf_tail hm) ha hlt
      · next h1 h2 =>
        have ih := ih (wf_tail hm)
        refine ⟨List.pairwise_cons.2 ⟨?_, ih.1⟩, ?_⟩
        · intro d hd
          rcases mem_putCell hd with h | h
          · show k < d.1
            omega
          · exact hlt d h
        · intro d hd
          rcases List.mem_cons.1 hd with rfl | hd
          · exact hm.2 _ (List.mem_cons_self ..)
          · exact ih.2 d hd

/-- A write keeps the canonical form. -/
theorem wf_memWrite (a : Nat) (b : Byte) {m : Memory} (hm : m.wf) : (memWrite a b m).wf :=
  wf_putCell hm (Nat.mod_lt _ (by decide))

/-- A sequence of writes keeps the canonical form. -/
theorem wf_memWriteBytes (a : Nat) (bs : List Byte) {m : Memory} (hm : m.wf) :
    (memWriteBytes a bs m).wf := by
  induction bs generalizing a m with
  | nil => exact hm
  | cons b bs ih => exact ih _ (wf_memWrite a b hm)

/-- Reset memory has the canonical form. -/
theorem wf_reset : State.reset.memory.wf := ⟨List.Pairwise.nil, by simp [State.reset]⟩

/-! ### Sequences of bytes -/

/-- A read after a sequence of at most 4096 writes: the byte stored there, or the old one (R59). -/
theorem memRead_memWriteBytes (m : Memory) (hm : m.wf) (a a' : Nat) (bs : List Byte)
    (hl : bs.length ≤ memSize) :
    (∀ k (hk : k < bs.length), a' % memSize = (a + k) % memSize →
      memRead (memWriteBytes a bs m) a' = bs[k]) ∧
    ((∀ k < bs.length, a' % memSize ≠ (a + k) % memSize) →
      memRead (memWriteBytes a bs m) a' = memRead m a') := by
  induction bs generalizing a m with
  | nil => exact ⟨fun k hk => absurd hk (Nat.not_lt_zero _), fun _ => rfl⟩
  | cons b bs ih =>
    simp only [List.length_cons] at hl
    have ih := ih (memWrite a b m) (wf_memWrite a b hm) (a + 1) (by omega)
    constructor
    · intro k hk he
      cases k with
      | zero =>
        have hne : ∀ k < bs.length, a' % memSize ≠ (a + 1 + k) % memSize := by
          intro k hk
          simp only [memSize] at *
          omega
        show memRead (memWriteBytes (a + 1) bs (memWrite a b m)) a' = b
        rw [ih.2 hne, memRead_memWrite m hm]
        exact if_pos he
      | succ k =>
        have : a + (k + 1) = a + 1 + k := by omega
        rw [this] at he
        exact ih.1 k (by simpa using hk) he
    · intro hne
      show memRead (memWriteBytes (a + 1) bs (memWrite a b m)) a' = memRead m a'
      rw [ih.2 fun k hk => by
        have := hne (k + 1) (by simpa using hk)
        rwa [show a + (k + 1) = a + 1 + k by omega] at this, memRead_memWrite m hm]
      exact if_neg (hne 0 (by simp))

/-! ### Equality -/

/-- Canonical memories with the same reads are the same list. -/
theorem memory_ext {m n : Memory} (hm : m.wf) (hn : n.wf)
    (h : ∀ a < memSize, lookupCell m a = lookupCell n a) : m = n := by
  induction m generalizing n with
  | nil =>
    cases n with
    | nil => rfl
    | cons d n =>
      obtain ⟨l, e⟩ := d
      have hd := hn.2 (l, e) (List.mem_cons_self ..)
      have := h l hd.1
      simp [lookupCell] at this
      exact absurd this.symm hd.2
  | cons c m ih =>
    obtain ⟨k, b⟩ := c
    have hc := hm.2 (k, b) (List.mem_cons_self ..)
    have hml := (List.pairwise_cons.1 hm.1).1
    cases n with
    | nil =>
      have := h k hc.1
      simp [lookupCell] at this
      exact absurd this hc.2
    | cons d n =>
      obtain ⟨l, e⟩ := d
      have hd := hn.2 (l, e) (List.mem_cons_self ..)
      have hnl := (List.pairwise_cons.1 hn.1).1
      have hkl : k = l := by
        rcases Nat.lt_trichotomy k l with g | g | g
        · have := h k hc.1
          rw [lookupCell_of_lt ((l, e) :: n) k (by
            intro c hc
            rcases List.mem_cons.1 hc with rfl | hc
            · exact g
            · exact Nat.lt_trans g (hnl c hc))] at this
          simp [lookupCell] at this
          exact absurd this hc.2
        · exact g
        · have := h l hd.1
          rw [lookupCell_of_lt ((k, b) :: m) l (by
            intro c hc
            rcases List.mem_cons.1 hc with rfl | hc
            · exact g
            · exact Nat.lt_trans g (hml c hc))] at this
          simp [lookupCell] at this
          exact absurd this.symm hd.2
      subst hkl
      have hbe : b = e := by simpa [lookupCell] using h k hc.1
      subst hbe
      congr 1
      apply ih (wf_tail hm) (wf_tail hn)
      intro a ha
      by_cases g : k = a
      · subst g
        rw [lookupCell_of_lt m k hml, lookupCell_of_lt n k hnl]
      · simpa [lookupCell, g] using h a ha

end Sys2Proof.Machine
end

