-- ==== Sys2Proof/Laws/Transfer.lean ====
section
/-! SUPPORT. The transfers between registers and memory (spec/43_index_memory.md R173 to R176), and the
arithmetic of the index register. -/

namespace Sys2Proof.Machine

@[simp] theorem firstRegs_length (v : Regs) (n : Nat) : (firstRegs v n).length = n := by
  simp [firstRegs]

theorem firstRegs_getElem (v : Regs) (n k : Nat) (h : k < (firstRegs v n).length) :
    (firstRegs v n)[k] = getReg v (BitVec.ofNat 4 k) := by
  simp [firstRegs]

/-- The register file after a load of the first `n` registers, `n` at most 16 (R175). -/
theorem getReg_loadFirstRegs (m : Memory) (i : Word) (n : Nat) (hn : n ≤ 16) (v : Regs) (r : Nibble) :
    getReg (loadFirstRegs m i n v) r =
      if r.toNat < n then memRead m (dataAddr i r.toNat) else getReg v r := by
  unfold loadFirstRegs
  induction n with
  | zero => simp
  | succ n ih =>
    rw [List.range_succ, List.foldl_append, List.foldl_cons, List.foldl_nil, getReg_setReg, ih (by omega)]
    have hr : (BitVec.ofNat 4 n).toNat = n := by
      rw [BitVec.toNat_ofNat]
      exact Nat.mod_eq_of_lt (by omega)
    by_cases e : r = BitVec.ofNat 4 n
    · subst e
      simp [hr]
    · have : r.toNat ≠ n := fun h => e (BitVec.eq_of_toNat_eq (by rw [hr, h]))
      have h2 : r.toNat < n + 1 ↔ r.toNat < n := by omega
      simp [e, h2]

/-- The 12-bit mask is the remainder modulo 4096 (R25). -/
theorem mask12_toNat (a : Word) : (a &&& 0x0FFF#16).toNat = a.toNat % 4096 := by
  have h : (0x0FFF#16).toNat = 2 ^ 12 - 1 := by decide
  rw [BitVec.toNat_and, h, Nat.and_two_pow_sub_one_eq_mod]

/-- A masked address is below 4096. -/
theorem mask12_lt (a : Word) : (a &&& 0x0FFF#16).toNat < 4096 := by
  rw [mask12_toNat]
  omega

/-- The decimal digits of a byte as numbers (R173). -/
theorem decimalDigits_length (b : Byte) : (decimalDigits b).length = 3 := rfl

end Sys2Proof.Machine
end

