-- ==== Sys2Proof/Machine/Commands.lean ====
section
/-! DEFINITION. The host's commands (spec/40_execution_cycle.md R100), each atomic, each with the state it
leaves, a fault's too (spec/60_exceptions.md R222): Reset, Load, Fetch, Execute, Step, the timers, the
keypad, introspection and Peek. Log entries 7 and 8. -/

namespace Sys2Proof.Machine

/-- The complete list of commands the host may issue (R100, R243, R244). -/
inductive Command where
  /-- `Reset` (spec/70_reset_and_hazards.md R260, R261). -/
  | reset
  /-- `Load(rom)` (R262). -/
  | load (rom : List Byte)
  /-- `Fetch` (R101). -/
  | fetch
  /-- `Execute(op)` (R103). -/
  | execute (op : Word)
  /-- `Step` (R107). -/
  | step
  /-- `DecDelay` (R236). -/
  | decDelay
  /-- `DecSound` (R237). -/
  | decSound
  /-- `KeyDown(k)` (R240). -/
  | keyDown (k : Nibble)
  /-- `KeyUp(k)` (R241). -/
  | keyUp (k : Nibble)
  /-- The accessor of `pc` (R243). -/
  | readPc
  /-- The accessor of `I` (R243). -/
  | readI
  /-- The accessor of `V[reg]` (R243). -/
  | readV (x : Nibble)
  /-- The accessor of `stack`, bottom to top (R243). -/
  | readStack
  /-- The accessor of `display` (R243). -/
  | readDisplay
  /-- The accessor of `delay` (R243). -/
  | readDelay
  /-- The accessor of `sound` (R243). -/
  | readSound
  /-- The accessor of `bad_opcode` (R243). -/
  | readBadOpcode
  /-- The accessor of one byte of `memory` (R243). -/
  | readMemory (a : Addr)
  /-- `Peek(a)` (R244). -/
  | peek (a : Word)
  deriving DecidableEq, Repr

/-- The outcome of a command: `ok`, with a value where it returns one, or a fault (R100, R222). -/
inductive Reply where
  | ok
  | bool (b : Bool)
  | byte (b : Byte)
  | word (w : Word)
  | words (ws : List Word)
  | cells (d : Display)
  | fault (f : Fault)
  | refused (r : Refusal)
  deriving DecidableEq, Repr

/-- `Reset` (R260): every item of state at its reset value. The random source has no reset
(spec/10_state.md R39), so the model's draw counter goes on. Log entry 4. -/
def resetMachine (s : State) : State := { State.reset with draws := s.draws }

/-- The bytes of a ROM that fit between the load address and the end of memory (R262, R263). -/
def romFits (rom : List Byte) : List Byte := rom.take (memSize - loadAddress)

/-- `Load(rom)`: copies what fits to 0x200 and upwards, and nothing else (R262). -/
def loadRom (rom : List Byte) (s : State) : State :=
  writeMemory (memWriteBytes loadAddress (romFits rom) s.memory) s

/-- A timer after one decrement command: stops at 0 (R236, R237). -/
def countDown (b : Byte) : Byte := if b = 0x00#8 then 0x00#8 else b - 0x01#8

/-- Whether a decrement occurred: the counter was nonzero (R236, R237). -/
def didCount (b : Byte) : Bool := b != 0x00#8

/-- `KeyDown(k)` (R240). -/
def keyDown (k : Nibble) (s : State) : State :=
  writeCurrentKey (some k) (writeKeys (setKey k true s.keys) s)

/-- `KeyUp(k)`: clears `current_key` whichever key is released (R241). -/
def keyUp (k : Nibble) (s : State) : State :=
  writeCurrentKey none (writeKeys (setKey k false s.keys) s)

/-- What `Peek(a)` returns for a given sentinel: the opcode at `a` when both bytes are in memory, else the
sentinel (R244). -/
def peekWith (sentinel : Word) (a : Word) (s : State) : Word :=
  if lastFetch < a.toNat then sentinel else memReadOpcode s.memory a.toNat

/-- A handler's answer as a command's outcome; `s` is what a fault leaves (R222). -/
def finish (s : State) : Result → Reply × State
  | .next t => (.ok, t)
  | .fault f => (.fault f, s)
  | .refused r => (.refused r, s)

/-- `Execute(op)` as a command: a fault leaves `bad_opcode` cleared and nothing else changed (R222). -/
def performExecute (op : Word) (s : State) : Reply × State :=
  finish (writeBadOpcode false s) (execute op s)

/-- `Fetch` as a command: it returns the opcode, and a fault changes nothing (R101, R222). -/
def performFetch (s : State) : Reply × State :=
  match fetch s with
  | .next r => (.word r.1, r.2)
  | .fault f => (.fault f, s)
  | .refused r => (.refused r, s)

/-- `Step` as a command: a fetch fault changes nothing; a handler's fault keeps the effects of Fetch and
the cleared `bad_opcode` (R107, R222). -/
def performStep (s : State) : Reply × State :=
  match fetch s with
  | .next r => performExecute r.1 r.2
  | .fault f => (.fault f, s)
  | .refused r => (.refused r, s)

/-- One command of the host. -/
def perform (c : Command) (s : State) : Reply × State :=
  match c with
  | .reset => (.ok, resetMachine s)
  | .load rom => (.ok, loadRom rom s)
  | .fetch => performFetch s
  | .execute op => performExecute op s
  | .step => performStep s
  | .decDelay => (.bool (didCount s.delay), writeDelay (countDown s.delay) s)
  | .decSound => (.bool (didCount s.sound), writeSound (countDown s.sound) s)
  | .keyDown k => (.ok, keyDown k s)
  | .keyUp k => (.ok, keyUp k s)
  | .readPc => (.word s.pc, s)
  | .readI => (.word s.i, s)
  | .readV x => (.byte (readV s x), s)
  | .readStack => (.words s.stack.reverse, s)
  | .readDisplay => (.cells s.display, s)
  | .readDelay => (.byte s.delay, s)
  | .readSound => (.byte s.sound, s)
  | .readBadOpcode => (.bool s.badOpcode, s)
  | .readMemory a => (.byte (memRead s.memory a.toNat), s)
  | .peek a => (.word (peekWith Config.peekSentinel a s), s)

/-- A sequence of commands, in the total order the host issues them (spec/00_scope.md R15, R16). A fault
does not stop the machine: the next command acts on the state it finds (R222, R231). -/
def performAll : List Command → State → State
  | [], s => s
  | c :: cs, s => performAll cs (perform c s).2

/-! ### Conditions and their numbers (spec/60_exceptions.md R220, R223) -/

/-- The conditions of the taxonomy, beside `ok` (R220, R223). -/
inductive Condition where
  | ok
  | unknownOpcode
  | unimplementedOpcode
  | stackUnderflow
  | fetchOutOfRange (pc : Word)
  | stackOverflow
  deriving DecidableEq, Repr

/-- The number of a condition (R223, decision D27). -/
def conditionCode : Condition → Nat
  | .ok => 0
  | .unknownOpcode => 1
  | .unimplementedOpcode => 2
  | .stackUnderflow => 3
  | .fetchOutOfRange _ => 4
  | .stackOverflow => 5

/-- The condition of a fault. -/
def faultCondition : Fault → Condition
  | .stackUnderflow => .stackUnderflow
  | .fetchOutOfRange pc => .fetchOutOfRange pc
  | .stackOverflow => .stackOverflow

/-- The flag-only condition of a word: what `Decode` tells the host beside `bad_opcode` (R221). -/
def wordCondition (op : Word) : Condition :=
  match decode op with
  | .unknown _ => .unknownOpcode
  | .instr (.sys _) => .unimplementedOpcode
  | .instr _ => .ok

/-- The condition that `Execute(op)` meets: at most one (R229). -/
def executeCondition (op : Word) (s : State) : Condition :=
  match execute op s with
  | .next _ => wordCondition op
  | .fault f => faultCondition f
  | .refused _ => wordCondition op

/-- The tone a host may derive from `sound` (R239); no rule of the core depends on it. -/
def tone (s : State) : Bool := s.sound != 0x00#8

end Sys2Proof.Machine
end

