-- ==== Sys2Proof/Safety.lean ====
section
/-! DEFINITION. The terms claims use: the invariants of spec/10_state.md R42, the state a Step's handler
runs in, the two conditions of the spec that are encoded in `pc`, what each instruction may write, and
what a program cannot observe. -/

namespace Sys2Proof.Machine

/-! ### Invariants (R42) -/

/-- The invariants that hold under every sequence of commands (R42): `I` is at most 0x0FFF, the current
key is down, the depth is within `STACK_MAX`; and memory has its canonical form. -/
structure CoreInv (s : State) : Prop where
  memory : s.memory.wf
  index : s.i.toNat ≤ 0x0FFF
  held : ∀ k, s.currentKey = some k → getKey s.keys k = true
  depth : ∀ n, Config.stackMax = some n → s.stack.length ≤ n.val

/-- The bounds that hold while instructions are executed only through Step (R42): `pc` is at most 0x1002
and every stack entry at most 0x1000. -/
structure StepInv (s : State) : Prop where
  pc : s.pc.toNat ≤ 0x1002
  stack : ∀ a ∈ s.stack, a.toNat ≤ 0x1000

/-! ### What a Step runs -/

/-- The word Fetch reads (spec/40_execution_cycle.md R101). -/
def fetchedWord (s : State) : Word := memReadOpcode s.memory s.pc.toNat

/-- The state in which a Step runs its handler: `pc` advanced and `bad_opcode` cleared (R109, R103). -/
def handlerState (s : State) : State := { s with pc := s.pc + 2#16, badOpcode := false }

/-- `WaitingForKey`: the word at `pc` is `FX0A` and no key is current (spec/45 R203). -/
def WaitingForKey (s : State) : Prop :=
  s.pc.toNat ≤ 0x0FFE ∧ s.currentKey = none ∧ ∃ x, decode (fetchedWord s) = .instr (.ldVxK x)

/-- "The run has ended": the word at `pc` is a jump to `pc` itself (spec/70 R276, decision D21). -/
def Ended (s : State) : Prop := s.pc.toNat ≤ 0x0FFE ∧ fetchedWord s = 0x1000#16 ||| s.pc

/-- Runs handlers one after another, stopping at the first that gives no next state. -/
def execAll : List Instr → State → Result
  | [], s => .next s
  | i :: is, s =>
    match exec i s with
    | .next t => execAll is t
    | .fault f => .fault f
    | .refused r => .refused r

/-! ### What each instruction may write -/

/-- The registers an instruction may write: its destination, `VF` where it writes a flag, `V[0]` to
`V[X]` for `FX65` (spec/10_state.md R21 to R23). -/
def mayWriteReg (i : Instr) (r : Nibble) : Prop :=
  match i with
  | .ldImm x _ | .addImm x _ | .ldReg x _ | .orReg x _ | .andReg x _ | .xorReg x _ => r = x
  | .rnd x _ | .ldVxDT x | .ldVxK x => r = x
  | .addReg x _ | .subReg x _ | .shrReg x _ | .subnReg x _ | .shlReg x _ => r = x ∨ r = 0xF#4
  | .drw _ _ _ => r = 0xF#4
  | .loadRegs x => r.toNat ≤ x.toNat
  | .cls | .ret | .sys _ | .jp _ | .call _ | .seImm _ _ | .sneImm _ _ | .seReg _ _ | .sneReg _ _ => False
  | .ldI _ | .jpV0 _ | .skp _ | .sknp _ | .ldDTVx _ | .ldSTVx _ | .addI _ | .ldF _ | .ldB _ => False
  | .storeRegs _ => False

/-- The addresses an instruction stores to in a state, as its meaning computes them: `dataAddr s.i k` for
the three digits of `FX33` and the `X + 1` registers of `FX55`; none for any other (spec/20 R58). -/
def storesTo (i : Instr) (s : State) (a : Nat) : Prop :=
  match i with
  | .ldB _ => ∃ k < 3, a % memSize = dataAddr s.i k % memSize
  | .storeRegs x => ∃ k ≤ x.toNat, a % memSize = dataAddr s.i k % memSize
  | .cls | .ret | .sys _ | .jp _ | .call _ | .seImm _ _ | .sneImm _ _ | .seReg _ _ | .sneReg _ _ => False
  | .ldImm _ _ | .addImm _ _ | .ldReg _ _ | .orReg _ _ | .andReg _ _ | .xorReg _ _ | .addReg _ _ => False
  | .subReg _ _ | .shrReg _ _ | .subnReg _ _ | .shlReg _ _ | .rnd _ _ | .drw _ _ _ => False
  | .ldI _ | .jpV0 _ | .skp _ | .sknp _ | .ldVxDT _ | .ldVxK _ | .ldDTVx _ | .ldSTVx _ => False
  | .addI _ | .ldF _ | .loadRegs _ => False

/-- The instructions that write `I` (spec/10_state.md R24). -/
def WritesI (i : Instr) : Prop :=
  (∃ nnn, i = .ldI nnn) ∨ ∃ x, i = .addI x ∨ i = .ldF x ∨ i = .storeRegs x ∨ i = .loadRegs x

/-- The instructions that write `pc` themselves: return, jumps, call, skips, and the key wait
(spec/10_state.md R27). -/
def WritesPc (i : Instr) : Prop :=
  i = .ret ∨ (∃ nnn, i = .jp nnn ∨ i = .call nnn ∨ i = .jpV0 nnn) ∨
    (∃ x nn, i = .seImm x nn ∨ i = .sneImm x nn) ∨ (∃ x y, i = .seReg x y ∨ i = .sneReg x y) ∨
    ∃ x, i = .skp x ∨ i = .sknp x ∨ i = .ldVxK x

/-- The instructions that write `VF` as a flag (spec/10_state.md R23). -/
def WritesFlag (i : Instr) : Prop :=
  (∃ x y, i = .addReg x y ∨ i = .subReg x y ∨ i = .shrReg x y ∨ i = .subnReg x y ∨ i = .shlReg x y) ∨
    ∃ x y n, i = .drw x y n

/-! ### Sprites -/

/-- Whether the sprite a DRW draws has a set bit for the cell at column `cx` and row `cy`: bit `7 - c` of
the byte at `I + r`, for the row `r < N` and the column `c < 8` counted from the wrapped origin
(spec/44_display.md R191). -/
def spriteHas (s : State) (x y n : Nibble) (cx cy : Nat) : Prop :=
  ∃ r c, r < n.toNat ∧ c < 8 ∧ cy = (readV s y).toNat % 32 + r ∧ cx = (readV s x).toNat % 64 + c ∧
    (memRead s.memory (s.i.toNat + r)).getLsbD (7 - c) = true

/-! ### What a program cannot observe -/

/-- A state with `sound` and `bad_opcode` blanked: no instruction reads either (spec/10_state.md R34, R37). -/
def unobserved (s : State) : State := { s with sound := 0x00#8, badOpcode := false }

/-- Two outcomes that differ at most in `sound` and `bad_opcode`. -/
def SameOutcome : Result → Result → Prop
  | .next s, .next t => unobserved s = unobserved t
  | .fault f, .fault g => f = g
  | .refused r, .refused q => r = q
  | _, _ => False

end Sys2Proof.Machine
end

