-- ==== Sys2Proof/Certificates/Slice0/Obligations.lean ====
section
/-! DEFINITION. The statements for the provers. A result statement says that `exec` answers a next state
`t` and gives all of it: `t = { s with … }` names the fields that may differ, so it is the instruction's
frame as well. Numbers are written with natural-number arithmetic, not with the model's operations. -/

open Sys2Proof Sys2Proof.Machine

/-! ### Encoding and decoding -/

/-- Decoding an encoded well-formed instruction gives it back, operands and all (30_encoding.md R71 to
R73, R77 to R82). -/
def Obligations.DecodeOfEncode : Prop :=
  ∀ i, WellFormed i → decode (encode i) = .instr i

/-- Every word that decodes to an instruction is that instruction's encoding, and the instruction is
well-formed: each word has one meaning (R75, R77). -/
def Obligations.EncodeOfDecode : Prop :=
  ∀ op i, decode op = .instr i → WellFormed i ∧ encode i = op

/-- The nibble patterns of the 35 kinds, written out with free nibbles, decode to their instructions with
each field in its place; for `0NNN` the two fixed words are excluded (R71 to R74). -/
def Obligations.EveryPatternDecodes : Prop :=
  ∀ (x y n : Nibble) (nn : Byte) (nnn : Addr),
    decode 0x00E0#16 = .instr .cls ∧ decode 0x00EE#16 = .instr .ret ∧
    (nnn ≠ 0x0E0#12 → nnn ≠ 0x0EE#12 → decode (0x0#4 ++ nnn) = .instr (.sys nnn)) ∧
    decode (0x1#4 ++ nnn) = .instr (.jp nnn) ∧ decode (0x2#4 ++ nnn) = .instr (.call nnn) ∧
    decode (0x3#4 ++ x ++ nn) = .instr (.seImm x nn) ∧
    decode (0x4#4 ++ x ++ nn) = .instr (.sneImm x nn) ∧
    decode (0x5#4 ++ x ++ y ++ 0x0#4) = .instr (.seReg x y) ∧
    decode (0x6#4 ++ x ++ nn) = .instr (.ldImm x nn) ∧
    decode (0x7#4 ++ x ++ nn) = .instr (.addImm x nn) ∧
    decode (0x8#4 ++ x ++ y ++ 0x0#4) = .instr (.ldReg x y) ∧
    decode (0x8#4 ++ x ++ y ++ 0x1#4) = .instr (.orReg x y) ∧
    decode (0x8#4 ++ x ++ y ++ 0x2#4) = .instr (.andReg x y) ∧
    decode (0x8#4 ++ x ++ y ++ 0x3#4) = .instr (.xorReg x y) ∧
    decode (0x8#4 ++ x ++ y ++ 0x4#4) = .instr (.addReg x y) ∧
    decode (0x8#4 ++ x ++ y ++ 0x5#4) = .instr (.subReg x y) ∧
    decode (0x8#4 ++ x ++ y ++ 0x6#4) = .instr (.shrReg x y) ∧
    decode (0x8#4 ++ x ++ y ++ 0x7#4) = .instr (.subnReg x y) ∧
    decode (0x8#4 ++ x ++ y ++ 0xE#4) = .instr (.shlReg x y) ∧
    decode (0x9#4 ++ x ++ y ++ 0x0#4) = .instr (.sneReg x y) ∧
    decode (0xA#4 ++ nnn) = .instr (.ldI nnn) ∧ decode (0xB#4 ++ nnn) = .instr (.jpV0 nnn) ∧
    decode (0xC#4 ++ x ++ nn) = .instr (.rnd x nn) ∧
    decode (0xD#4 ++ x ++ y ++ n) = .instr (.drw x y n) ∧
    decode (0xE#4 ++ x ++ 0x9E#8) = .instr (.skp x) ∧ decode (0xE#4 ++ x ++ 0xA1#8) = .instr (.sknp x) ∧
    decode (0xF#4 ++ x ++ 0x07#8) = .instr (.ldVxDT x) ∧ decode (0xF#4 ++ x ++ 0x0A#8) = .instr (.ldVxK x) ∧
    decode (0xF#4 ++ x ++ 0x15#8) = .instr (.ldDTVx x) ∧ decode (0xF#4 ++ x ++ 0x18#8) = .instr (.ldSTVx x) ∧
    decode (0xF#4 ++ x ++ 0x1E#8) = .instr (.addI x) ∧ decode (0xF#4 ++ x ++ 0x29#8) = .instr (.ldF x) ∧
    decode (0xF#4 ++ x ++ 0x33#8) = .instr (.ldB x) ∧ decode (0xF#4 ++ x ++ 0x55#8) = .instr (.storeRegs x) ∧
    decode (0xF#4 ++ x ++ 0x65#8) = .instr (.loadRegs x)

/-- The `Unknown` words are exactly those of families 5, 8, 9, E and F whose last nibble or low byte no
pattern has (R83). -/
def Obligations.UnknownWordsExactly : Prop :=
  ∀ op : Word, (∃ w, decode op = .unknown w) ↔
    (op.toNat / 4096 = 5 ∧ op.toNat % 16 ≠ 0) ∨
    (op.toNat / 4096 = 8 ∧ op.toNat % 16 ∈ [0x8, 0x9, 0xA, 0xB, 0xC, 0xD, 0xF]) ∨
    (op.toNat / 4096 = 9 ∧ op.toNat % 16 ≠ 0) ∨
    (op.toNat / 4096 = 0xE ∧ op.toNat % 256 ∉ [0x9E, 0xA1]) ∨
    (op.toNat / 4096 = 0xF ∧
      op.toNat % 256 ∉ [0x07, 0x0A, 0x15, 0x18, 0x1E, 0x29, 0x33, 0x55, 0x65])

/-- The decoder's kind is the one row of the match and mask table that selects the word; apart from `0NNN`
the 35 patterns are pairwise disjoint (R82). -/
def Obligations.KindIsTheSelectedRow : Prop :=
  (∀ op k, decodeKind op = some k ↔ selects k op = true) ∧
  ∀ op k k', k ≠ .k0NNN → k' ≠ .k0NNN → matchesRow k op = true → matchesRow k' op = true → k = k'

/-- Words written out from the encodings, one of each family of decoder rules, decode as the spec's table
of examples says (95_test_vectors.md 2.1). -/
def Obligations.WrittenOutWordsDecode : Prop :=
  decode 0x0123#16 = .instr (.sys 0x123#12) ∧ decode 0x1FFF#16 = .instr (.jp 0xFFF#12) ∧
  decode 0x5120#16 = .instr (.seReg 0x1#4 0x2#4) ∧ decode 0x5121#16 = .unknown 0x5121#16 ∧
  decode 0x8127#16 = .instr (.subnReg 0x1#4 0x2#4) ∧ decode 0x8128#16 = .unknown 0x8128#16 ∧
  decode 0x9121#16 = .unknown 0x9121#16 ∧ decode 0xEF9E#16 = .instr (.skp 0xF#4) ∧
  decode 0xE19F#16 = .unknown 0xE19F#16 ∧ decode 0xF155#16 = .instr (.storeRegs 0x1#4) ∧
  decode 0xD125#16 = .instr (.drw 0x1#4 0x2#4 0x5#4) ∧ decode 0xFFFF#16 = .unknown 0xFFFF#16

/-! ### Fetch, Execute, Step -/

/-- Fetch returns `(MemRead(pc) << 8) | MemRead(pc + 1)` and adds 2 to `pc`, nothing else; above 0x0FFE it
raises `FetchOutOfRange(pc)` (40_execution_cycle.md R101). -/
def Obligations.FetchIsBigEndianAndAdvancesPc : Prop :=
  ∀ s, fetch s =
    if 0x0FFE < s.pc.toNat then .fault (.fetchOutOfRange s.pc)
    else .next ((memRead s.memory s.pc.toNat).setWidth 16 <<< 8 |||
      (memRead s.memory (s.pc.toNat + 1)).setWidth 16, { s with pc := s.pc + 2#16 })

/-- A Fetch or Step with `pc` above 0x0FFE raises `FetchOutOfRange(pc)` and changes no state (R102). -/
def Obligations.OutOfRangeFetchChangesNothing : Prop :=
  ∀ s : State, 0x0FFE < s.pc.toNat →
    perform .fetch s = (.fault (.fetchOutOfRange s.pc), s) ∧
    perform .step s = (.fault (.fetchOutOfRange s.pc), s) ∧
    step s = .fault (.fetchOutOfRange s.pc)

/-- When the two bytes at `pc` decode to the instruction `i`, a step is `exec i` in the state with `pc`
advanced by 2 and `bad_opcode` cleared (R104, R107, R109). -/
def Obligations.StepRunsDecodedInstruction : Prop :=
  ∀ s i, s.pc.toNat ≤ 0x0FFE →
    decode (opcodeOfBytes (memRead s.memory s.pc.toNat) (memRead s.memory (s.pc.toNat + 1))) = .instr i →
    step s = exec i { s with pc := s.pc + 2#16, badOpcode := false }

/-- Execute clears `bad_opcode`, decodes and runs the one handler; a fault leaves `bad_opcode` cleared and
nothing else changed (R103). -/
def Obligations.ExecuteClearsBadOpcodeAndDispatches : Prop :=
  ∀ op s,
    (∀ i, decode op = .instr i → execute op s = exec i { s with badOpcode := false }) ∧
    (∀ w, decode op = .unknown w → execute op s = .next { s with badOpcode := true }) ∧
    (∀ t, execute op s = .next t → perform (.execute op) s = (.ok, t)) ∧
    (∀ f, execute op s = .fault f →
      perform (.execute op) s = (.fault f, { s with badOpcode := false }))

/-- Step is Fetch followed by Execute of the fetched opcode; when the handler faults, the effects of Fetch
stand, `bad_opcode` is false and nothing else changes (R107). -/
def Obligations.StepIsFetchThenExecute : Prop :=
  ∀ s, (∀ f, fetch s = .fault f → step s = .fault f ∧ perform .step s = (.fault f, s)) ∧
    ∀ op s1, fetch s = .next (op, s1) →
      step s = execute op s1 ∧ (∀ t, execute op s1 = .next t → perform .step s = (.ok, t)) ∧
      ∀ f, execute op s1 = .fault f →
        perform .step s = (.fault f, { s with pc := s.pc + 2#16, badOpcode := false })

/-- An `Unknown` word sets `bad_opcode` and changes nothing else; within a Step `pc` has advanced (R105). -/
def Obligations.UnknownWordIsFlaggedNoOp : Prop :=
  ∀ s op w, decode op = .unknown w →
    perform (.execute op) s = (.ok, { s with badOpcode := true }) ∧
    (s.pc.toNat ≤ 0x0FFE → fetchedWord s = op →
      step s = .next { s with pc := s.pc + 2#16, badOpcode := true })

/-- `0NNN`: every word 0x0000 to 0x0FFF but 0x00E0 and 0x00EE sets `bad_opcode` and changes nothing else;
`NNN` is ignored (R106). -/
def Obligations.SysSetsBadOpcodeOnly : Prop :=
  (∀ nnn s, exec (.sys nnn) s = .next { s with badOpcode := true }) ∧
  ∀ (op : Word) s, op.toNat ≤ 0x0FFF → op ≠ 0x00E0#16 → op ≠ 0x00EE#16 →
    perform (.execute op) s = (.ok, { s with badOpcode := true })

/-- An opcode stored where Fetch reads next is the one the next Step executes: the fetch sees earlier
stores at once (20_memory.md R65). -/
def Obligations.StoredOpcodeIsExecutedNext : Prop :=
  ∀ s op, s.memory.wf → s.pc.toNat ≤ 0x0FFE →
    step (placeOpcode op s) =
      execute op { placeOpcode op s with pc := s.pc + 2#16 }

/-! ### Control flow -/

/-- `00EE` pops an address into `pc`, all 16 bits; on an empty stack it raises `StackUnderflow`, and the
command leaves `bad_opcode` false and nothing else changed; in a Step `pc` keeps the value Fetch gave it
(41_control_flow.md R120). -/
def Obligations.ReturnPopsOrUnderflows : Prop :=
  (∀ s a st, s.stack = a :: st → exec .ret s = .next { s with pc := a, stack := st }) ∧
  ∀ s, s.stack = [] → exec .ret s = .fault .stackUnderflow ∧
    perform (.execute 0x00EE#16) s = (.fault .stackUnderflow, { s with badOpcode := false }) ∧
    (s.pc.toNat ≤ 0x0FFE → fetchedWord s = 0x00EE#16 →
      perform .step s = (.fault .stackUnderflow, { s with pc := s.pc + 2#16, badOpcode := false }))

/-- `1NNN` loads `pc` with `NNN` (R121). -/
def Obligations.JumpLoadsPc : Prop :=
  ∀ nnn s, exec (.jp nnn) s = .next { s with pc := BitVec.ofNat 16 nnn.toNat }

/-- `2NNN` under any stack limit pushes `pc` and loads it with `NNN`; it raises `StackOverflow` exactly when
the limit is an integer and equals the depth; the instruction itself takes this hardware's `STACK_MAX` as
the limit (R122). -/
def Obligations.CallUnderAnyLimit : Prop :=
  (∀ (limit : StackLimit) nnn s,
    ((∀ n, limit = some n → s.stack.length ≠ n.val) →
      callWithin limit nnn s =
        .next { s with pc := BitVec.ofNat 16 nnn.toNat, stack := s.pc :: s.stack }) ∧
    ((∃ n, limit = some n ∧ s.stack.length = n.val) →
      callWithin limit nnn s = .fault .stackOverflow)) ∧
  ∀ nnn s, exec (.call nnn) s = callWithin Config.stackMax nnn s

/-- `2NNN` on this hardware, below its `STACK_MAX` or without one, pushes `pc` and jumps; at a finite
`STACK_MAX` it raises `StackOverflow`, and the command leaves `bad_opcode` false and nothing else changed,
so nothing is pushed and `pc` is kept; in a Step `pc` keeps the value Fetch gave it (R122, 60 R222, R226). -/
def Obligations.CallPushesAndJumps : Prop :=
  (∀ nnn s, (∀ n, Config.stackMax = some n → s.stack.length ≠ n.val) →
    exec (.call nnn) s =
      .next { s with pc := BitVec.ofNat 16 nnn.toNat, stack := s.pc :: s.stack }) ∧
  ∀ nnn s n, Config.stackMax = some n → s.stack.length = n.val →
    exec (.call nnn) s = .fault .stackOverflow ∧
    perform (.execute (0x2#4 ++ nnn)) s = (.fault .stackOverflow, { s with badOpcode := false }) ∧
    (s.pc.toNat ≤ 0x0FFE → fetchedWord s = 0x2#4 ++ nnn →
      perform .step s = (.fault .stackOverflow, { s with pc := s.pc + 2#16, badOpcode := false }))

/-- Nested calls are undone by as many returns, in last-in first-out order: after them the state is the one
before the first call (R120, R122; the document's subroutine round-trip). -/
def Obligations.NestedCallsReturnInOrder : Prop :=
  ∀ (targets : List Addr) s t, execAll (targets.map .call) s = .next t →
    execAll (List.replicate targets.length .ret) t = .next s

/-- The four compare-and-skip instructions add 2 to `pc`, modulo 2^16, when their condition holds, and
change nothing else (R123 to R126). -/
def Obligations.CompareAndSkip : Prop :=
  ∀ s x y nn,
    exec (.seImm x nn) s =
      .next (if (readV s x).toNat = nn.toNat then { s with pc := s.pc + 2#16 } else s) ∧
    exec (.sneImm x nn) s =
      .next (if (readV s x).toNat = nn.toNat then s else { s with pc := s.pc + 2#16 }) ∧
    exec (.seReg x y) s =
      .next (if (readV s x).toNat = (readV s y).toNat then { s with pc := s.pc + 2#16 } else s) ∧
    exec (.sneReg x y) s =
      .next (if (readV s x).toNat = (readV s y).toNat then s else { s with pc := s.pc + 2#16 })

/-- `BNNN` loads `pc` with `(NNN + V[0]) mod 4096` (R127). -/
def Obligations.IndexedJumpMasksItsTarget : Prop :=
  ∀ nnn s, exec (.jpV0 nnn) s =
    .next { s with pc := BitVec.ofNat 16 ((nnn.toNat + (readV s 0x0#4).toNat) % 4096) }

/-- A Step at a jump to its own address changes nothing but `bad_opcode`, which it clears (R121, 70 R276). -/
def Obligations.JumpToSelfChangesNothing : Prop :=
  ∀ s, Ended s → step s = .next { s with badOpcode := false }

/-! ### Registers -/

/-- `6XNN` loads `NN`, `7XNN` adds it modulo 256 without a flag; every other register and everything else
is unchanged (42_register_alu.md R140, R141). -/
def Obligations.ImmediateLoadAndAdd : Prop :=
  ∀ s x nn,
    (∃ t, exec (.ldImm x nn) s = .next t ∧ t = { s with v := t.v } ∧
      ∀ r, readV t r = if r = x then nn else readV s r) ∧
    ∃ t, exec (.addImm x nn) s = .next t ∧ t = { s with v := t.v } ∧
      ∀ r, readV t r =
        if r = x then BitVec.ofNat 8 (((readV s x).toNat + nn.toNat) % 256) else readV s r

/-- `8XY0` to `8XY3` copy, or, and, xor into `V[X]`; no flag, every other register and everything else is
unchanged (R142 to R145). -/
def Obligations.CopyAndLogic : Prop :=
  ∀ s x y,
    (∃ t, exec (.ldReg x y) s = .next t ∧ t = { s with v := t.v } ∧
      ∀ r, readV t r = if r = x then readV s y else readV s r) ∧
    (∃ t, exec (.orReg x y) s = .next t ∧ t = { s with v := t.v } ∧
      ∀ r, readV t r = if r = x then readV s x ||| readV s y else readV s r) ∧
    (∃ t, exec (.andReg x y) s = .next t ∧ t = { s with v := t.v } ∧
      ∀ r, readV t r = if r = x then readV s x &&& readV s y else readV s r) ∧
    ∃ t, exec (.xorReg x y) s = .next t ∧ t = { s with v := t.v } ∧
      ∀ r, readV t r = if r = x then readV s x ^^^ readV s y else readV s r

/-- `8XY4`: the sum modulo 256, then `VF` is 1 if the unwrapped sum exceeds 255, else 0, also when `X` is
15 (R146). -/
def Obligations.AddSetsCarry : Prop :=
  ∀ s x y, ∃ t, exec (.addReg x y) s = .next t ∧ t = { s with v := t.v } ∧
    ∀ r, readV t r =
      if r = 0xF#4 then (if 255 < (readV s x).toNat + (readV s y).toNat then 1#8 else 0#8)
      else if r = x then BitVec.ofNat 8 (((readV s x).toNat + (readV s y).toNat) % 256)
      else readV s r

/-- `8XY5`: `V[X] - V[Y]` modulo 256, then `VF` is 0 if `V[Y]` exceeded `V[X]`, else 1 (R147). -/
def Obligations.SubSetsNotBorrow : Prop :=
  ∀ s x y, ∃ t, exec (.subReg x y) s = .next t ∧ t = { s with v := t.v } ∧
    ∀ r, readV t r =
      if r = 0xF#4 then (if (readV s x).toNat < (readV s y).toNat then 0#8 else 1#8)
      else if r = x then BitVec.ofNat 8 (((readV s x).toNat + 256 - (readV s y).toNat) % 256)
      else readV s r

/-- `8XY6`: `VF` is bit 0 of `V[Y]`, then `V[X]` is `V[Y]` halved, also when `X` is 15 (R148). -/
def Obligations.ShiftRightReadsY : Prop :=
  ∀ s x y, ∃ t, exec (.shrReg x y) s = .next t ∧ t = { s with v := t.v } ∧
    ∀ r, readV t r =
      if r = x then BitVec.ofNat 8 ((readV s y).toNat / 2)
      else if r = 0xF#4 then BitVec.ofNat 8 ((readV s y).toNat % 2)
      else readV s r

/-- `8XY7`: `V[Y] - V[X]` modulo 256, then `VF` is 0 if `V[X]` exceeded `V[Y]`, else 1 (R149). -/
def Obligations.SubnSetsNotBorrow : Prop :=
  ∀ s x y, ∃ t, exec (.subnReg x y) s = .next t ∧ t = { s with v := t.v } ∧
    ∀ r, readV t r =
      if r = 0xF#4 then (if (readV s y).toNat < (readV s x).toNat then 0#8 else 1#8)
      else if r = x then BitVec.ofNat 8 (((readV s y).toNat + 256 - (readV s x).toNat) % 256)
      else readV s r

/-- `8XYE`: `VF` is bit 7 of `V[Y]`, then `V[X]` is `V[Y]` doubled modulo 256, also when `X` is 15 (R150). -/
def Obligations.ShiftLeftReadsY : Prop :=
  ∀ s x y, ∃ t, exec (.shlReg x y) s = .next t ∧ t = { s with v := t.v } ∧
    ∀ r, readV t r =
      if r = x then BitVec.ofNat 8 (2 * (readV s y).toNat % 256)
      else if r = 0xF#4 then BitVec.ofNat 8 ((readV s y).toNat / 128)
      else readV s r

/-- `CXNN` takes the next free byte, puts its conjunction with `NN` into `V[X]` and uses the byte up, no
flag; and so for every byte `b` that might have been drawn (R160). The draw counter is the model's own
(log entry 4). -/
def Obligations.RandomIsMasked : Prop :=
  ∀ s x nn,
    (∃ t, exec (.rnd x nn) s = .next t ∧ t = { s with v := t.v, draws := s.draws + 1 } ∧
      ∀ r, readV t r = if r = x then Config.randByte s.draws &&& nn else readV s r) ∧
    ∀ b, ∃ t, rndWith b x nn s = .next t ∧
      ∀ r, readV t r = if r = x then b &&& nn else readV s r

/-! ### Index register and memory -/

/-- `ANNN` loads `I` with `NNN`; `FX1E` adds `V[X]` to `I` modulo 4096; no flag, nothing else
(43_index_memory.md R170, R171). -/
def Obligations.IndexLoadAndAdd : Prop :=
  ∀ s x nnn,
    exec (.ldI nnn) s = .next { s with i := BitVec.ofNat 16 nnn.toNat } ∧
    exec (.addI x) s = .next { s with i := BitVec.ofNat 16 ((s.i.toNat + (readV s x).toNat) % 4096) }

/-- `FX29` loads `I` with `FONT_BASE + 5 * (V[X] mod 16)`, under every admissible font base; the result is at
most 0x01FB and the mask changes nothing (R172). -/
def Obligations.GlyphAddressIsLoaded : Prop :=
  (∀ (base : FontBase) x s,
    ldFWith base x s = .next { s with i := BitVec.ofNat 16 (base.val + 5 * ((readV s x).toNat % 16)) } ∧
    base.val + 5 * ((readV s x).toNat % 16) ≤ 0x01FB) ∧
  ∀ x s, exec (.ldF x) s =
    .next { s with i := BitVec.ofNat 16 (Config.fontBase.val + 5 * ((readV s x).toNat % 16)) }

/-- `FX33` stores the hundreds, tens and ones of `V[X]` at `I`, `I + 1` and `I + 2`, modulo 4096; every other
byte and everything else is unchanged (R173). -/
def Obligations.BcdStoresThreeDigits : Prop :=
  ∀ s x, s.memory.wf →
    ∃ t, exec (.ldB x) s = .next t ∧ t = { s with memory := t.memory } ∧
      ∀ a, memRead t.memory a =
        if a % 4096 = s.i.toNat % 4096 then BitVec.ofNat 8 ((readV s x).toNat / 100)
        else if a % 4096 = (s.i.toNat + 1) % 4096 then BitVec.ofNat 8 ((readV s x).toNat / 10 % 10)
        else if a % 4096 = (s.i.toNat + 2) % 4096 then BitVec.ofNat 8 ((readV s x).toNat % 10)
        else memRead s.memory a

/-- `FX55` stores `V[0]` to `V[X]` at `I` to `I + X`, modulo 4096, and leaves `I + X + 1` modulo 4096 in `I`;
every other byte and everything else is unchanged (R174). -/
def Obligations.StoreRegistersAndAdvance : Prop :=
  ∀ s x, s.memory.wf →
    ∃ t, exec (.storeRegs x) s = .next t ∧ t = { s with memory := t.memory, i := t.i } ∧
      t.i.toNat = (s.i.toNat + x.toNat + 1) % 4096 ∧
      (∀ r : Nibble, r.toNat ≤ x.toNat → memRead t.memory (s.i.toNat + r.toNat) = readV s r) ∧
      ∀ a, (∀ k ≤ x.toNat, a % 4096 ≠ (s.i.toNat + k) % 4096) →
        memRead t.memory a = memRead s.memory a

/-- `FX65` loads `V[0]` to `V[X]` from `I` to `I + X`, modulo 4096, and leaves `I + X + 1` modulo 4096 in `I`;
the registers above `X` and everything else are unchanged (R175). -/
def Obligations.LoadRegistersAndAdvance : Prop :=
  ∀ s x, ∃ t, exec (.loadRegs x) s = .next t ∧ t = { s with v := t.v, i := t.i } ∧
    t.i.toNat = (s.i.toNat + x.toNat + 1) % 4096 ∧
    ∀ r : Nibble, readV t r =
      if r.toNat ≤ x.toNat then memRead s.memory (s.i.toNat + r.toNat) else readV s r

/-- Registers stored by `FX55` come back by `FX65` from the same `I`, whatever was done to the registers in
between (R174, R175). -/
def Obligations.StoreThenLoadRestores : Prop :=
  ∀ s x t v, s.memory.wf → exec (.storeRegs x) s = .next t →
    ∃ u, exec (.loadRegs x) { t with i := s.i, v := v } = .next u ∧
      ∀ r : Nibble, r.toNat ≤ x.toNat → readV u r = readV s r

/-! ### Display -/

/-- `00E0` makes every cell dark and changes nothing else (44_display.md R190). -/
def Obligations.ClearScreenDarkensEveryCell : Prop :=
  ∀ s, ∃ t, exec .cls s = .next t ∧ t = { s with display := t.display } ∧
    ∀ x y h, getCell t.display x y h = false

/-- `DXYN` xors the sprite onto the display cell by cell, clips what falls outside the screen, and leaves 1 in
`VF` exactly when a lit cell met a set bit, else 0; everything else is unchanged (R191). -/
def Obligations.DrawXorsEachCellAndReportsCollision : Prop :=
  ∀ s x y n, ∃ t, exec (.drw x y n) s = .next t ∧ t = { s with display := t.display, v := t.v } ∧
    (∀ cx cy h, (spriteHas s x y n cx cy → getCell t.display cx cy h = !getCell s.display cx cy h) ∧
      (¬ spriteHas s x y n cx cy → getCell t.display cx cy h = getCell s.display cx cy h)) ∧
    ((∃ cx cy h, getCell s.display cx cy h = true ∧ spriteHas s x y n cx cy) →
      readV t 0xF#4 = 1#8) ∧
    ((¬ ∃ cx cy h, getCell s.display cx cy h = true ∧ spriteHas s x y n cx cy) →
      readV t 0xF#4 = 0#8) ∧
    ∀ r, r ≠ 0xF#4 → readV t r = readV s r

/-- Drawing the same sprite twice, neither coordinate from `VF`, restores the display; the second draw
reports a collision exactly when the sprite has a set bit in a cell of the screen that was dark before the
first draw, since those are the cells the first draw lit. So on a screen that is dark under the sprite it
reports one exactly when the sprite has a set bit in a cell of the screen. R192 says this of every screen,
which R191 does not give for a cell that was lit before (log entry 14). -/
def Obligations.DrawTwiceRestoresTheDisplay : Prop :=
  ∀ s x y n t u, x ≠ 0xF#4 → y ≠ 0xF#4 → exec (.drw x y n) s = .next t → exec (.drw x y n) t = .next u →
    u.display = s.display ∧
    (readV u 0xF#4 = 1#8 ↔
      ∃ cx cy h, getCell s.display cx cy h = false ∧ spriteHas s x y n cx cy) ∧
    ((∀ cx cy h, spriteHas s x y n cx cy → getCell s.display cx cy h = false) →
      (readV u 0xF#4 = 1#8 ↔ ∃ cx cy, cx < 64 ∧ cy < 32 ∧ spriteHas s x y n cx cy))

/-! ### Keypad and timers -/

/-- `EX9E` and `EXA1` skip exactly when the key named by the low nibble of `V[X]` is down, and is up
(45_keypad_timer_instructions.md R200, R201). -/
def Obligations.KeySkips : Prop :=
  ∀ s x,
    exec (.skp x) s =
      .next (if getKey s.keys (BitVec.ofNat 4 ((readV s x).toNat % 16)) = true
        then { s with pc := s.pc + 2#16 } else s) ∧
    exec (.sknp x) s =
      .next (if getKey s.keys (BitVec.ofNat 4 ((readV s x).toNat % 16)) = true
        then s else { s with pc := s.pc + 2#16 })

/-- `FX0A` takes 2 from `pc` when no key is current, else puts the key's number into `V[X]` and leaves `pc`
alone; nothing else changes (R202). -/
def Obligations.KeyWaitTakesOrRepeats : Prop :=
  ∀ s x,
    (s.currentKey = none → exec (.ldVxK x) s = .next { s with pc := s.pc - 2#16 }) ∧
    ∀ k, s.currentKey = some k →
      ∃ t, exec (.ldVxK x) s = .next t ∧ t = { s with v := t.v } ∧
        ∀ r, readV t r = if r = x then BitVec.ofNat 8 k.toNat else readV s r

/-- While waiting for a key a Step leaves the whole state as it was, but that `bad_opcode` is cleared (R203). -/
def Obligations.WaitingStepStutters : Prop :=
  ∀ s, WaitingForKey s → step s = .next { s with badOpcode := false }

/-- `FX07` reads `delay`, `FX15` and `FX18` write `delay` and `sound`; nothing else changes (R204 to R206). -/
def Obligations.TimerAccess : Prop :=
  ∀ s x,
    (∃ t, exec (.ldVxDT x) s = .next t ∧ t = { s with v := t.v } ∧
      ∀ r, readV t r = if r = x then s.delay else readV s r) ∧
    exec (.ldDTVx x) s = .next { s with delay := readV s x } ∧
    exec (.ldSTVx x) s = .next { s with sound := readV s x }

/-! ### The host's commands -/

/-- DecDelay and DecSound take 1 from their counter and return true when it is not 0, else they return false
and change nothing (60_exceptions.md R236, R237). -/
def Obligations.TimersCountDownToZero : Prop :=
  ∀ s : State,
    perform .decDelay s =
      (if s.delay.toNat = 0 then (.bool false, s)
       else (.bool true, { s with delay := BitVec.ofNat 8 (s.delay.toNat - 1) })) ∧
    perform .decSound s =
      (if s.sound.toNat = 0 then (.bool false, s)
       else (.bool true, { s with sound := BitVec.ofNat 8 (s.sound.toNat - 1) }))

/-- KeyDown marks its key down and makes it current; KeyUp marks its key up and leaves no key current,
whichever key it is; no other key and nothing else changes (R240, R241). -/
def Obligations.KeyCommands : Prop :=
  ∀ s k,
    (∃ t, perform (.keyDown k) s = (.ok, t) ∧ t = { s with keys := t.keys, currentKey := some k } ∧
      ∀ j, getKey t.keys j = if j = k then true else getKey s.keys j) ∧
    ∃ t, perform (.keyUp k) s = (.ok, t) ∧ t = { s with keys := t.keys, currentKey := none } ∧
      ∀ j, getKey t.keys j = if j = k then false else getKey s.keys j

/-- Load copies the ROM to 0x200 and upwards, dropping what lies beyond 3584 bytes, and changes nothing else
(70_reset_and_hazards.md R262). -/
def Obligations.LoadCopiesAndTruncates : Prop :=
  ∀ rom s, s.memory.wf →
    ∃ t, perform (.load rom) s = (.ok, t) ∧ t = { s with memory := t.memory } ∧
      ∀ a, a < 4096 → memRead t.memory a =
        if h : 0x200 ≤ a ∧ a - 0x200 < rom.length then rom[a - 0x200] else memRead s.memory a

/-- The state after reset, item by item, and the font table in memory (10_state.md R41); the Reset command
brings every item there, from any state (70 R260). -/
def Obligations.ResetLeavesTheStatedValues : Prop :=
  (∀ r, readV State.reset r = 0#8) ∧ State.reset.i = 0#16 ∧ State.reset.pc = 0x0200#16 ∧
  State.reset.stack = [] ∧ (∀ x y h, getCell State.reset.display x y h = false) ∧
  State.reset.delay = 0#8 ∧ State.reset.sound = 0#8 ∧ (∀ k, getKey State.reset.keys k = false) ∧
  State.reset.currentKey = none ∧ State.reset.badOpcode = false ∧
  (∀ k (h : k < 80), memRead State.reset.memory (Config.fontBase.val + k) = Config.fontData[k]) ∧
  (∀ a, a < 4096 → (a < Config.fontBase.val ∨ Config.fontBase.val + 80 ≤ a) →
    memRead State.reset.memory a = 0#8) ∧
  ∀ s, ∃ t, perform .reset s = (.ok, t) ∧ { t with draws := 0 } = { State.reset with draws := 0 }

/-- The accessors return the named item and change nothing; the stack is returned bottom to top; Peek returns
the opcode at an address up to 0x0FFE, else the sentinel (60 R243, R244). -/
def Obligations.IntrospectionOnlyReads : Prop :=
  ∀ s : State,
    perform .readPc s = (.word s.pc, s) ∧ perform .readI s = (.word s.i, s) ∧
    (∀ x, perform (.readV x) s = (.byte (readV s x), s)) ∧
    perform .readStack s = (.words s.stack.reverse, s) ∧ perform .readDisplay s = (.cells s.display, s) ∧
    perform .readDelay s = (.byte s.delay, s) ∧ perform .readSound s = (.byte s.sound, s) ∧
    perform .readBadOpcode s = (.bool s.badOpcode, s) ∧
    (∀ a : Addr, perform (.readMemory a) s = (.byte (memRead s.memory a.toNat), s)) ∧
    ∀ a : Word, perform (.peek a) s =
      (.word (if a.toNat ≤ 0x0FFE then (memRead s.memory a.toNat).setWidth 16 <<< 8 |||
        (memRead s.memory (a.toNat + 1)).setWidth 16 else Config.peekSentinel), s)

/-! ### Invariants -/

/-- The invariants hold at reset (R42). -/
def Obligations.ResetMeetsTheInvariants : Prop := CoreInv State.reset ∧ StepInv State.reset

/-- Every step keeps the invariants: the memory's canonical form, `I` at most 0x0FFF, the current key down,
the depth within `STACK_MAX` (R42). -/
def Obligations.StepKeepsTheInvariants : Prop :=
  ∀ s t, CoreInv s → step s = .next t → CoreInv t

/-- Every sequence of host commands, from any state that meets them, keeps the invariants, faults included
(R42). -/
def Obligations.CommandsKeepTheInvariants : Prop :=
  ∀ (cs : List Command) s, CoreInv s → CoreInv (performAll cs s)

/-- Every step keeps `pc` at most 0x1002 and every stack entry at most 0x1000 (R42). -/
def Obligations.StepKeepsThePcBounds : Prop :=
  ∀ s t, StepInv s → step s = .next t → StepInv t

/-! ### Rules about all instructions -/

/-- The handlers raise `StackUnderflow` from a return on an empty stack and `StackOverflow` from a call at the
limit, always there and nowhere else; in every other case, whatever the instruction and the state, the
handler answers a next state (60 R220, R229). -/
def Obligations.OnlyStackFaultsFromHandlers : Prop :=
  ∀ i s,
    (i = .ret → s.stack = [] → exec i s = .fault .stackUnderflow) ∧
    (∀ nnn n, i = .call nnn → Config.stackMax = some n → s.stack.length = n.val →
      exec i s = .fault .stackOverflow) ∧
    (¬ (i = .ret ∧ s.stack = []) →
      (¬ ∃ nnn n, i = .call nnn ∧ Config.stackMax = some n ∧ s.stack.length = n.val) →
      ∃ t, exec i s = .next t)

/-- No register changes but an instruction's destination, `VF` for a flag writer, and `V[0]` to `V[X]` for
`FX65` (10_state.md R21, R23). -/
def Obligations.RegisterFrame : Prop :=
  ∀ i s t, exec i s = .next t → ∀ r, ¬ mayWriteReg i r → readV t r = readV s r

/-- No byte of memory changes but those `FX33` and `FX55` store to (20_memory.md R58). -/
def Obligations.MemoryFrame : Prop :=
  ∀ i s t, s.memory.wf → exec i s = .next t →
    ∀ a, ¬ storesTo i s a → memRead t.memory a = memRead s.memory a

/-- Who writes what: `I` only its five writers, `pc` only control flow and the key wait, the stack only call
and return, the display only clear and draw, `delay` only `FX15`, `sound` only `FX18`, `bad_opcode` only
`0NNN`, the keypad no instruction (R24, R27, R30, R33 to R37). -/
def Obligations.SpecialRegisterFrame : Prop :=
  ∀ i s t, exec i s = .next t →
    (¬ WritesI i → t.i = s.i) ∧ (¬ WritesPc i → t.pc = s.pc) ∧
    (i ≠ .ret → (∀ nnn, i ≠ .call nnn) → t.stack = s.stack) ∧
    (i ≠ .cls → (∀ x y n, i ≠ .drw x y n) → t.display = s.display) ∧
    ((∀ x, i ≠ .ldDTVx x) → t.delay = s.delay) ∧ ((∀ x, i ≠ .ldSTVx x) → t.sound = s.sound) ∧
    ((∀ nnn, i ≠ .sys nnn) → t.badOpcode = s.badOpcode) ∧
    t.keys = s.keys ∧ t.currentKey = s.currentKey

/-- An instruction that writes `VF` as a flag stores 0 or 1 in it, but where `X` is 15 in a shift, whose
result is written last (R22, R23, 42 R148, R150). -/
def Obligations.FlagsAreZeroOrOne : Prop :=
  ∀ i s t, WritesFlag i → (∀ y, i ≠ .shrReg 0xF#4 y ∧ i ≠ .shlReg 0xF#4 y) → exec i s = .next t →
    readV t 0xF#4 = 0#8 ∨ readV t 0xF#4 = 1#8

/-- After an Execute that completes, `bad_opcode` tells exactly whether the word was `Unknown` or `0NNN`
(R37). -/
def Obligations.BadOpcodeTellsUnknownOrSys : Prop :=
  ∀ op s t, execute op s = .next t →
    (t.badOpcode = true ↔ (∃ w, decode op = .unknown w) ∨ ∃ nnn, decode op = .instr (.sys nnn))

/-- Keys and the current key are written only by KeyDown, KeyUp and Reset (R35, R36). -/
def Obligations.OnlyKeyCommandsWriteTheKeypad : Prop :=
  ∀ c s, c ≠ .reset → (∀ k, c ≠ .keyDown k ∧ c ≠ .keyUp k) →
    (perform c s).2.keys = s.keys ∧ (perform c s).2.currentKey = s.currentKey

/-- No instruction reads `sound` or `bad_opcode`: two states that differ only there step to outcomes that
differ only there (R34, R37). -/
def Obligations.SoundAndBadOpcodeAreUnobservable : Prop :=
  ∀ s s', unobserved s = unobserved s' → SameOutcome (step s) (step s')
end

