-- ==== Sys2Proof/Tests/Slice0.lean ====
section
/-! SUPPORT. The model's own tests. Expected results come from spec/95_test_vectors.md (its table numbers are
cited), from the worked examples of the rules, or from hand calculation by a cited rule. -/

namespace Sys2Proof.Tests

open Sys2Proof Sys2Proof.Machine

/-! ### Helpers -/

/-- The reset state with some registers set. -/
def withRegs (l : List (Nibble × Byte)) : State := l.foldl (fun s p => writeV p.1 p.2 s) State.reset

/-- A state with bytes stored from an address on. -/
def withBytes (a : Nat) (bs : List Byte) (s : State) : State := writeMemory (memWriteBytes a bs s.memory) s

/-- A state with some display cells lit. -/
def withLit (l : List Nat) (s : State) : State :=
  writeDisplay (l.foldl (fun d k => d.setIfInBounds k true) s.display) s

/-- The state after a bare Execute. -/
def ran (op : Word) (s : State) : State := (perform (.execute op) s).2

/-- The indexes of the lit cells. -/
def lit (s : State) : List Nat := (s.display.toList.zipIdx.filter (·.1)).map (·.2)

/-- The state a handler's answer holds, if any. -/
def nextOf (r : Result) : Option State :=
  match r with
  | .next t => some t
  | .fault _ => none
  | .refused _ => none

/-! ### Well-formedness: the one check, on both words it names (R77) -/

theorem test_ill_formed_sys_00E0 : ¬ WellFormed (.sys 0x0E0#12) := by decide

theorem test_ill_formed_sys_00EE : ¬ WellFormed (.sys 0x0EE#12) := by decide

theorem test_well_formed_sys : WellFormed (.sys 0x000#12) := by decide

/-! ### Decoding: one word per kind, written out from the encodings (R71, R76 to R82) -/

theorem test_decode_cls : decode 0x00E0#16 = .instr .cls := by decide
theorem test_decode_ret : decode 0x00EE#16 = .instr .ret := by decide
theorem test_decode_sys : decode 0x0FFF#16 = .instr (.sys 0xFFF#12) := by decide
theorem test_decode_jp : decode 0x1ABC#16 = .instr (.jp 0xABC#12) := by decide
theorem test_decode_call : decode 0x2ABC#16 = .instr (.call 0xABC#12) := by decide
theorem test_decode_seImm : decode 0x332A#16 = .instr (.seImm 0x3#4 0x2A#8) := by decide
theorem test_decode_sneImm : decode 0x432B#16 = .instr (.sneImm 0x3#4 0x2B#8) := by decide
theorem test_decode_seReg : decode 0x5120#16 = .instr (.seReg 0x1#4 0x2#4) := by decide
theorem test_decode_ldImm : decode 0x6A05#16 = .instr (.ldImm 0xA#4 0x05#8) := by decide
theorem test_decode_addImm : decode 0x7220#16 = .instr (.addImm 0x2#4 0x20#8) := by decide
theorem test_decode_ldReg : decode 0x8340#16 = .instr (.ldReg 0x3#4 0x4#4) := by decide
theorem test_decode_orReg : decode 0x8121#16 = .instr (.orReg 0x1#4 0x2#4) := by decide
theorem test_decode_andReg : decode 0x8122#16 = .instr (.andReg 0x1#4 0x2#4) := by decide
theorem test_decode_xorReg : decode 0x8123#16 = .instr (.xorReg 0x1#4 0x2#4) := by decide
theorem test_decode_addReg : decode 0x8124#16 = .instr (.addReg 0x1#4 0x2#4) := by decide
theorem test_decode_subReg : decode 0x8125#16 = .instr (.subReg 0x1#4 0x2#4) := by decide
theorem test_decode_shrReg : decode 0x8126#16 = .instr (.shrReg 0x1#4 0x2#4) := by decide
theorem test_decode_subnReg : decode 0x8127#16 = .instr (.subnReg 0x1#4 0x2#4) := by decide
theorem test_decode_shlReg : decode 0x812E#16 = .instr (.shlReg 0x1#4 0x2#4) := by decide
theorem test_decode_sneReg : decode 0x9120#16 = .instr (.sneReg 0x1#4 0x2#4) := by decide
theorem test_decode_ldI : decode 0xA2F0#16 = .instr (.ldI 0x2F0#12) := by decide
theorem test_decode_jpV0 : decode 0xB300#16 = .instr (.jpV0 0x300#12) := by decide
theorem test_decode_rnd : decode 0xC30F#16 = .instr (.rnd 0x3#4 0x0F#8) := by decide
theorem test_decode_drw : decode 0xD125#16 = .instr (.drw 0x1#4 0x2#4 0x5#4) := by decide
theorem test_decode_skp : decode 0xE29E#16 = .instr (.skp 0x2#4) := by decide
theorem test_decode_sknp : decode 0xE2A1#16 = .instr (.sknp 0x2#4) := by decide
theorem test_decode_ldVxDT : decode 0xF307#16 = .instr (.ldVxDT 0x3#4) := by decide
theorem test_decode_ldVxK : decode 0xF10A#16 = .instr (.ldVxK 0x1#4) := by decide
theorem test_decode_ldDTVx : decode 0xF315#16 = .instr (.ldDTVx 0x3#4) := by decide
theorem test_decode_ldSTVx : decode 0xF318#16 = .instr (.ldSTVx 0x3#4) := by decide
theorem test_decode_addI : decode 0xF21E#16 = .instr (.addI 0x2#4) := by decide
theorem test_decode_ldF : decode 0xF429#16 = .instr (.ldF 0x4#4) := by decide
theorem test_decode_ldB : decode 0xF533#16 = .instr (.ldB 0x5#4) := by decide
theorem test_decode_storeRegs : decode 0xF255#16 = .instr (.storeRegs 0x2#4) := by decide
theorem test_decode_loadRegs : decode 0xF265#16 = .instr (.loadRegs 0x2#4) := by decide

/-- The `Unknown` words of table 2.1. -/
theorem test_decode_unknown :
    [0x5121, 0x512F, 0x8128, 0x8129, 0x812A, 0x812B, 0x812C, 0x812D, 0x812F, 0x9121, 0xE19F, 0xE100, 0xE1FF,
      0xF000, 0xF1FF, 0xF108, 0xF175, 0xF185, 0xFFFF].all
        (fun w => decodeKind (BitVec.ofNat 16 w) == none) = true := by decide

/-- The table's word numbering: the opcode itself, high byte first in memory (R55). -/
theorem test_table_word : decodeTableWord 16 0xD015 = some (.drw 0x0#4 0x1#4 0x5#4) := by decide

/-- Assembler text of R85, and of a raw word. -/
theorem test_asm_text : asmText 0x8126#16 = "SHR V1, V2" ∧ asmText 0xF255#16 = "LD [I], V2" ∧
    asmText 0x5121#16 = "DW 0x5121" := by decide

/-! ### Fetch, Step, flag-only conditions (2.2) -/

/-- E1: two fetches of the loaded bytes 00 0F A0 00 give 000F and A000. -/
theorem test_fetch_big_endian :
    let s := (perform (.load [0x00#8, 0x0F#8, 0xA0#8, 0x00#8]) State.reset).2
    let r := perform .fetch s
    let q := perform .fetch r.2
    (r.1, r.2.pc, q.1, q.2.pc) = (.word 0x000F#16, 0x0202#16, .word 0xA000#16, 0x0204#16) := by decide

/-- An odd target is fetched as it stands: bytes 07 00 at 0203, `0NNN`, `pc` 0205 (2.2). -/
theorem test_step_odd_pc :
    let s := (perform (.load [0x12#8, 0x03#8, 0x60#8, 0x07#8]) State.reset).2
    let t := (perform .step s).2
    let u := (perform .step t).2
    (t.pc, u.pc, u.badOpcode) = (0x0203#16, 0x0205#16, true) := by decide

/-- The last fetchable address leaves `pc` 1000, from which every Step faults and changes nothing (2.2). -/
theorem test_step_at_the_end :
    let s := withBytes 0xFFE [0x60#8, 0x01#8] (writePc 0x0FFE#16 State.reset)
    let t := (perform .step s).2
    (readV t 0x0#4, t.pc, (perform .step t).1, (perform .step t).2.pc) =
      (0x01#8, 0x1000#16, .fault (.fetchOutOfRange 0x1000#16), 0x1000#16) := by decide

theorem test_fetch_0FFF :
    (perform .fetch (writePc 0x0FFF#16 State.reset)).1 = .fault (.fetchOutOfRange 0x0FFF#16) := by decide

/-- F1: a return on an empty stack inside a Step keeps the Fetch and clears `bad_opcode`. -/
theorem test_step_underflow :
    let s := writeBadOpcode true (withBytes 0x200 [0x00#8, 0xEE#8] State.reset)
    let r := perform .step s
    (r.1, r.2.pc, r.2.stack, r.2.badOpcode) = (.fault .stackUnderflow, 0x0202#16, [], false) := by decide

theorem test_sys : (ran 0x0123#16 State.reset).badOpcode = true := by decide

/-- A later Execute clears `bad_opcode` (2.2). -/
theorem test_bad_opcode_cleared :
    let t := ran 0x6001#16 (ran 0x0000#16 State.reset)
    (t.badOpcode, readV t 0x0#4) = (false, 0x01#8) := by decide

theorem test_unknown : perform (.execute 0x8128#16) State.reset = (.ok, writeBadOpcode true State.reset) := by
  rfl

/-- The conditions' numbers (R223). -/
theorem test_condition_codes :
    conditionCode (executeCondition 0x5121#16 State.reset) = 1 ∧
    conditionCode (executeCondition 0x0123#16 State.reset) = 2 ∧
    conditionCode (executeCondition 0x00EE#16 State.reset) = 3 ∧
    conditionCode (executeCondition 0x6001#16 State.reset) = 0 := by decide

/-! ### Control flow (2.3) -/

theorem test_jp : (ran 0x1ABC#16 State.reset).pc = 0x0ABC#16 := by decide

theorem test_call :
    let t := ran 0x2ABC#16 (writePc 0x0202#16 State.reset)
    (t.pc, t.stack) = (0x0ABC#16, [0x0202#16]) := by decide

/-- `STACK_MAX` = 2: the third call faults (2.3). -/
theorem test_call_overflow :
    nextOf (callWithin (some ⟨2, by decide⟩) 0x500#12
      (writeStack [0x0300#16, 0x0200#16] State.reset)) = none := by decide

/-- E5, read from the top: the returns give back 0456 and then 0234. -/
theorem test_ret :
    let t := ran 0x00EE#16 (writeStack [0x0456#16, 0x0234#16] State.reset)
    (t.pc, t.stack) = (0x0456#16, [0x0234#16]) := by decide

theorem test_ret_underflow : (perform (.execute 0x00EE#16) State.reset).1 = .fault .stackUnderflow := by decide

theorem test_seImm :
    let s := writePc 0x0202#16 (withRegs [(0x3#4, 0x2A#8)])
    ((ran 0x332A#16 s).pc, (ran 0x332B#16 s).pc) = (0x0204#16, 0x0202#16) := by decide

/-- A bare Execute's skip wraps modulo 2^16 (2.3). -/
theorem test_skip_wraps : (ran 0x332A#16 (writePc 0xFFFE#16 (withRegs [(0x3#4, 0x2A#8)]))).pc = 0x0000#16 := by
  decide

theorem test_sneImm :
    let s := writePc 0x0202#16 (withRegs [(0x3#4, 0x2A#8)])
    ((ran 0x432A#16 s).pc, (ran 0x432B#16 s).pc) = (0x0202#16, 0x0204#16) := by decide

theorem test_seReg :
    let s := writePc 0x0202#16 (withRegs [(0x1#4, 0x07#8), (0x2#4, 0x08#8)])
    ((ran 0x5120#16 s).pc, (ran 0x5110#16 s).pc) = (0x0202#16, 0x0204#16) := by decide

theorem test_sneReg :
    let s := writePc 0x0202#16 (withRegs [(0x1#4, 0x07#8), (0x2#4, 0x08#8)])
    ((ran 0x9120#16 s).pc, (ran 0x9110#16 s).pc) = (0x0204#16, 0x0202#16) := by decide

/-- The sum 10FE is masked to 00FE; B001 adds up to 0100 (2.3). -/
theorem test_jpV0 :
    let s := withRegs [(0x0#4, 0xFF#8)]
    ((ran 0xBFFF#16 s).pc, (ran 0xB001#16 s).pc) = (0x00FE#16, 0x0100#16) := by decide

/-! ### Registers (2.4) -/

theorem test_ldImm_VF : readV (ran 0x6F7B#16 State.reset) 0xF#4 = 0x7B#8 := by decide

theorem test_addImm_no_flag :
    let t := ran 0x7201#16 (withRegs [(0x2#4, 0xFF#8), (0xF#4, 0x07#8)])
    (readV t 0x2#4, readV t 0xF#4) = (0x00#8, 0x07#8) := by decide

theorem test_ldReg : readV (ran 0x8120#16 (withRegs [(0x2#4, 0x3C#8)])) 0x1#4 = 0x3C#8 := by decide

theorem test_orReg :
    let t := ran 0x8121#16 (withRegs [(0x1#4, 0xF0#8), (0x2#4, 0x3C#8), (0xF#4, 0x55#8)])
    (readV t 0x1#4, readV t 0xF#4) = (0xFC#8, 0x55#8) := by decide

theorem test_andReg :
    let t := ran 0x8122#16 (withRegs [(0x1#4, 0xF0#8), (0x2#4, 0x3C#8), (0xF#4, 0x55#8)])
    (readV t 0x1#4, readV t 0xF#4) = (0x30#8, 0x55#8) := by decide

theorem test_xorReg :
    let t := ran 0x8123#16 (withRegs [(0x1#4, 0xF0#8), (0x2#4, 0x3C#8), (0xF#4, 0x55#8)])
    (readV t 0x1#4, readV t 0xF#4) = (0xCC#8, 0x55#8) := by decide

theorem test_addReg_wraps :
    let t := ran 0x8124#16 (withRegs [(0x1#4, 0xFF#8), (0x2#4, 0x01#8)])
    (readV t 0x1#4, readV t 0xF#4) = (0x00#8, 0x01#8) := by decide

/-- `X` = F: the sum is lost, the carry stands; `Y` = F: the old `VF` is the addend (2.4). -/
theorem test_addReg_VF :
    readV (ran 0x8F14#16 (withRegs [(0xF#4, 0xF0#8), (0x1#4, 0x20#8)])) 0xF#4 = 0x01#8 ∧
    readV (ran 0x81F4#16 (withRegs [(0x1#4, 0x10#8), (0xF#4, 0x05#8)])) 0x1#4 = 0x15#8 := by decide

theorem test_subReg_borrows :
    let t := ran 0x8125#16 (withRegs [(0x1#4, 0x0F#8), (0x2#4, 0xF0#8)])
    (readV t 0x1#4, readV t 0xF#4) = (0x1F#8, 0x00#8) := by decide

theorem test_subReg_equal :
    let t := ran 0x8125#16 (withRegs [(0x1#4, 0x33#8), (0x2#4, 0x33#8)])
    (readV t 0x1#4, readV t 0xF#4) = (0x00#8, 0x01#8) := by decide

theorem test_shrReg_reads_Y :
    let t := ran 0x8126#16 (withRegs [(0x1#4, 0xEE#8), (0x2#4, 0x05#8)])
    (readV t 0x1#4, readV t 0xF#4, readV t 0x2#4) = (0x02#8, 0x01#8, 0x05#8) := by decide

/-- `X` = F: the result stands; `Y` = F: the old `VF` is shifted (2.4). -/
theorem test_shrReg_VF :
    readV (ran 0x8F26#16 (withRegs [(0x2#4, 0x07#8), (0xF#4, 0x55#8)])) 0xF#4 = 0x03#8 ∧
    readV (ran 0x81F6#16 (withRegs [(0xF#4, 0x07#8), (0x1#4, 0xAA#8)])) 0x1#4 = 0x03#8 := by decide

theorem test_subnReg :
    let t := ran 0x8127#16 (withRegs [(0x1#4, 0x01#8), (0x2#4, 0xFF#8)])
    (readV t 0x1#4, readV t 0xF#4) = (0xFE#8, 0x01#8) := by decide

theorem test_subnReg_borrows :
    let t := ran 0x8127#16 (withRegs [(0x1#4, 0xF0#8), (0x2#4, 0x0F#8)])
    (readV t 0x1#4, readV t 0xF#4) = (0x1F#8, 0x00#8) := by decide

theorem test_shlReg_reads_Y :
    let t := ran 0x812E#16 (withRegs [(0x1#4, 0xEE#8), (0x2#4, 0x81#8)])
    (readV t 0x1#4, readV t 0xF#4, readV t 0x2#4) = (0x02#8, 0x01#8, 0x81#8) := by decide

theorem test_shlReg_VF :
    readV (ran 0x8F2E#16 (withRegs [(0x2#4, 0xC1#8)])) 0xF#4 = 0x82#8 ∧
    readV (ran 0x81FE#16 (withRegs [(0xF#4, 0x81#8), (0x1#4, 0xAA#8)])) 0x1#4 = 0x02#8 := by decide

/-- Draws of B7 under three masks (2.4). -/
theorem test_rnd :
    [(0x0F#8, 0x07#8), (0x00#8, 0x00#8), (0xFF#8, 0xB7#8)].all
      (fun p => (nextOf (rndWith 0xB7#8 0x3#4 p.1 State.reset)).map (readV · 0x3#4) == some p.2) = true := by
  decide

/-! ### Index and memory (2.5) -/

theorem test_ldI : (ran 0xAFFF#16 State.reset).i = 0x0FFF#16 := by decide

theorem test_addI_wraps :
    let t := ran 0xF11E#16 (writeI 0x0FFF#16 (withRegs [(0x1#4, 0xFF#8), (0xF#4, 0x09#8)]))
    (t.i, readV t 0xF#4) = (0x00FE#16, 0x09#8) := by decide

/-- `FONT_BASE` = 050: glyph A, the high nibble ignored (2.5). -/
theorem test_ldF :
    (nextOf (ldFWith 0x050 0x4#4 (withRegs [(0x4#4, 0x1A#8)]))).map (·.i) = some 0x0082#16 := by decide

theorem test_ldB :
    let t := ran 0xF033#16 (writeI 0x0300#16 (withRegs [(0x0#4, 0x9C#8)]))
    (memRead t.memory 0x300, memRead t.memory 0x301, memRead t.memory 0x302, t.i) =
      (0x01#8, 0x05#8, 0x06#8, 0x0300#16) := by decide

/-- 255 from 0FFE on: the ones digit wraps to 000 (2.5). -/
theorem test_ldB_wraps :
    memRead (ran 0xF533#16 (writeI 0x0FFE#16 (withRegs [(0x5#4, 0xFF#8)]))).memory 0x000 = 0x05#8 :=
  (memRead_memWriteBytes [] wf_reset 0x0FFE 0x000 [0x02#8, 0x05#8, 0x05#8] (by decide)).1 2 (by decide) rfl

theorem test_storeRegs :
    let t := ran 0xF255#16 (writeI 0x0400#16 (withRegs [(0x0#4, 0x11#8), (0x1#4, 0x22#8), (0x2#4, 0x33#8)]))
    (memRead t.memory 0x400, memRead t.memory 0x401, memRead t.memory 0x402, t.i) =
      (0x11#8, 0x22#8, 0x33#8, 0x0403#16) := by decide

/-- All sixteen registers, `I` past them (2.5). -/
theorem test_storeRegs_all :
    let s := writeI 0x0400#16 (withRegs ((List.range 16).map fun k => (BitVec.ofNat 4 k, BitVec.ofNat 8 (0x10 + k))))
    let t := ran 0xFF55#16 s
    (memRead t.memory 0x400, memRead t.memory 0x40F, memRead t.memory 0x410, t.i) =
      (0x10#8, 0x1F#8, 0x00#8, 0x0410#16) := by decide

theorem test_loadRegs :
    let t := ran 0xF265#16 (writeI 0x0400#16 (withBytes 0x400 [0xAA#8, 0xBB#8, 0xCC#8] (withRegs [(0x3#4, 0x99#8)])))
    (readV t 0x0#4, readV t 0x2#4, readV t 0x3#4, t.i) = (0xAA#8, 0xCC#8, 0x99#8, 0x0403#16) := by decide

/-- `X` = 0 loads one register (2.5). -/
theorem test_loadRegs_one :
    let t := ran 0xF065#16 (writeI 0x0400#16 (withBytes 0x400 [0x77#8] (withRegs [(0x1#4, 0x99#8)])))
    (readV t 0x0#4, readV t 0x1#4, t.i) = (0x77#8, 0x99#8, 0x0401#16) := by decide

/-! ### Display (2.6) -/

theorem test_cls :
    let t := ran 0x00E0#16 (withLit [5] (withRegs [(0xF#4, 0x07#8)]))
    (lit t, readV t 0xF#4) = ([], 0x07#8) := by decide +kernel

/-- E7: the conventional glyph 0 at (59, 29) lights eight cells and clips the rest. -/
theorem test_drw_clips :
    let s := writeI 0x0300#16 (withBytes 0x300 [0xF0#8, 0x90#8, 0x90#8, 0x90#8, 0xF0#8]
      (withRegs [(0x0#4, 0x3B#8), (0x1#4, 0x1D#8)]))
    let t := ran 0xD015#16 s
    (lit t, readV t 0xF#4) = ([1915, 1916, 1917, 1918, 1979, 1982, 2043, 2046], 0x00#8) := by decide +kernel

/-- The coordinate is read from the old `VF`; the origin (70, 33) would wrap to (6, 1) (2.6). -/
theorem test_drw_origin :
    let s := writeI 0x0300#16 (withBytes 0x300 [0xC0#8] (withRegs [(0xF#4, 0x42#8), (0x1#4, 0x21#8)]))
    let t := ran 0xDF11#16 s
    (lit t, readV t 0xF#4) = ([66, 67], 0x00#8) := by decide +kernel

/-- Two draws over a cell that was lit before: the second meets a dark cell and reports no collision, by
R191, although the sprite has a set bit there. Log entry 14. -/
theorem test_draw_twice_over_a_lit_cell :
    let s := withLit [0] (writeI 0x0300#16 (withBytes 0x300 [0x80#8] State.reset))
    let t := ran 0xD011#16 s
    let u := ran 0xD011#16 t
    (lit t, readV t 0xF#4, lit u, readV u 0xF#4) = ([], 0x01#8, [0], 0x00#8) := by decide +kernel

/-! ### Keypad and timers (2.7) -/

theorem test_skp :
    let s := writePc 0x0210#16 (keyDown 0x5#4 (withRegs [(0x2#4, 0xF5#8), (0x3#4, 0x04#8)]))
    ((ran 0xE29E#16 s).pc, (ran 0xE39E#16 s).pc) = (0x0212#16, 0x0210#16) := by decide

theorem test_sknp :
    let s := writePc 0x0210#16 (keyDown 0x5#4 (withRegs [(0x2#4, 0x05#8), (0x3#4, 0x04#8)]))
    ((ran 0xE2A1#16 s).pc, (ran 0xE3A1#16 s).pc) = (0x0210#16, 0x0212#16) := by decide

theorem test_ldVxK_waits : (ran 0xF30A#16 (writePc 0x0206#16 State.reset)).pc = 0x0204#16 := by decide

theorem test_ldVxK_takes :
    let t := ran 0xFF0A#16 (writePc 0x0202#16 (keyDown 0x9#4 State.reset))
    (readV t 0xF#4, t.pc, t.currentKey) = (0x09#8, 0x0202#16, some 0x9#4) := by decide

theorem test_ldVxDT :
    let t := ran 0xF307#16 (writeDelay 0x3C#8 State.reset)
    (readV t 0x3#4, t.delay) = (0x3C#8, 0x3C#8) := by decide

theorem test_ldDTVx : (ran 0xF315#16 (withRegs [(0x3#4, 0x3C#8)])).delay = 0x3C#8 := by decide

theorem test_ldSTVx : (ran 0xF318#16 (withRegs [(0x3#4, 0x02#8)])).sound = 0x02#8 := by decide

/-! ### The host's commands -/

/-- KeyDown(3), KeyDown(5), KeyUp(3): key 5 is still down and no key is current (2.7). -/
theorem test_keys :
    let s := performAll [.keyDown 0x3#4, .keyDown 0x5#4, .keyUp 0x3#4] State.reset
    (getKey s.keys 0x3#4, getKey s.keys 0x5#4, s.currentKey) = (false, true, none) := by decide

/-- The sound timer at 1 counts down once; the delay timer at 0 does not wrap (2.7). -/
theorem test_timers :
    let s := writeSound 0x01#8 State.reset
    ((perform .decSound s).1, (perform .decSound s).2.sound, (perform .decDelay s).1, (perform .decDelay s).2.delay) =
      (.bool true, 0x00#8, .bool false, 0x00#8) := by decide

/-- The stack is read bottom to top (R243, E5). -/
theorem test_read_stack :
    (perform .readStack (writeStack [0x0456#16, 0x0234#16] State.reset)).1 = .words [0x0234#16, 0x0456#16] := by
  decide

/-- Peek below and above the last fetchable address (R244). -/
theorem test_peek :
    let s := withBytes 0xFFE [0x12#8, 0x34#8] State.reset
    (peekWith 0xFFFF#16 0x0FFE#16 s, peekWith 0xABCD#16 0x0FFF#16 s) = (0x1234#16, 0xABCD#16) := by decide

/-- What fits of a ROM of 4000 bytes is 3584 bytes (2.2, R263). -/
theorem test_rom_fits : (romFits (List.replicate 4000 0xAA#8)).length = 3584 := by
  rw [romFits, List.length_take, List.length_replicate]
  decide

/-- A word placed for the next Step is the one it runs, from reset. -/
theorem test_with_fetch_word :
    (nextOf (step (State.reset.withFetchWord 16 0x6A05))).map (fun t => (readV t 0xA#4, t.pc)) =
      some (0x05#8, 0x0202#16) := by decide

/-! ### Witnesses: the hypotheses of each statement are met -/

theorem witness_DecodeOfEncode : WellFormed (.drw 0xF#4 0x0#4 0xF#4) ∧ WellFormed (.sys 0xFFF#12) := by decide

theorem witness_EncodeOfDecode : decode 0x00EE#16 = .instr .ret ∧ decode 0xFF65#16 = .instr (.loadRegs 0xF#4) := by
  decide

theorem witness_EveryPatternDecodes : (0x0E1#12 : Addr) ≠ 0x0E0#12 ∧ (0x0E1#12 : Addr) ≠ 0x0EE#12 := by decide

theorem witness_KindIsTheSelectedRow :
    Kind.k8XY4 ≠ .k0NNN ∧ matchesRow .k8XY4 0x8124#16 = true ∧ selects .k0NNN 0x0000#16 = true := by decide

theorem witness_OutOfRangeFetchChangesNothing :
    0x0FFE < (writePc 0x0FFF#16 State.reset).pc.toNat ∧ 0x0FFE < (writePc 0xFFFF#16 State.reset).pc.toNat := by
  decide

theorem witness_StepRunsDecodedInstruction :
    let s := withBytes 0xFFE [0x60#8, 0x01#8] (writePc 0x0FFE#16 State.reset)
    s.pc.toNat ≤ 0x0FFE ∧
      decode (opcodeOfBytes (memRead s.memory s.pc.toNat) (memRead s.memory (s.pc.toNat + 1))) =
        .instr (.ldImm 0x0#4 0x01#8) := by decide

theorem witness_ExecuteClearsBadOpcodeAndDispatches :
    decode 0x6001#16 = .instr (.ldImm 0x0#4 0x01#8) ∧ decode 0x8128#16 = .unknown 0x8128#16 ∧
      (execute 0x00EE#16 State.reset = .fault .stackUnderflow) ∧
      ∃ t, execute 0x6001#16 State.reset = .next t := ⟨by decide, by decide, rfl, _, rfl⟩

theorem witness_StepIsFetchThenExecute :
    fetch (writePc 0x0FFF#16 State.reset) = .fault (.fetchOutOfRange 0x0FFF#16) ∧
    (∃ op s1, fetch State.reset = .next (op, s1) ∧ ∃ t, execute op s1 = .next t) ∧
    ∃ op s1, fetch (withBytes 0x200 [0x00#8, 0xEE#8] State.reset) = .next (op, s1) ∧
      execute op s1 = .fault .stackUnderflow :=
  ⟨rfl, ⟨_, _, rfl, _, rfl⟩, _, _, rfl, rfl⟩

theorem witness_UnknownWordIsFlaggedNoOp :
    let s := withBytes 0x200 [0x81#8, 0x28#8] State.reset
    decode 0x8128#16 = .unknown 0x8128#16 ∧ s.pc.toNat ≤ 0x0FFE ∧ fetchedWord s = 0x8128#16 := by decide

theorem witness_SysSetsBadOpcodeOnly :
    (0x0FFF#16 : Word).toNat ≤ 0x0FFF ∧ (0x0FFF#16 : Word) ≠ 0x00E0#16 ∧ (0x0FFF#16 : Word) ≠ 0x00EE#16 := by
  decide

theorem witness_StoredOpcodeIsExecutedNext :
    State.reset.memory.wf ∧ (writePc 0x0FFE#16 State.reset).pc.toNat ≤ 0x0FFE := ⟨wf_reset, by decide⟩

theorem witness_ReturnPopsOrUnderflows :
    (writeStack [0x1000#16] State.reset).stack = 0x1000#16 :: [] ∧
      let s := withBytes 0x200 [0x00#8, 0xEE#8] State.reset
      s.stack = [] ∧ s.pc.toNat ≤ 0x0FFE ∧ fetchedWord s = 0x00EE#16 := by decide

theorem witness_CallUnderAnyLimit :
    let s := writeStack [0x0300#16, 0x0200#16] State.reset
    (∀ n, (none : StackLimit) = some n → s.stack.length ≠ n.val) ∧
    ∃ n : { n : Nat // 0 < n }, (some ⟨2, by decide⟩ : StackLimit) = some n ∧ s.stack.length = n.val :=
  ⟨fun _ h => (by cases h), ⟨2, by decide⟩, rfl, rfl⟩

theorem witness_CallPushesAndJumps :
    ∀ n, Config.stackMax = some n → State.reset.stack.length ≠ n.val :=
  fun n _ => Nat.ne_of_lt n.property

/-- Whatever finite limit `Config.stackMax` is, a state stands at it with a call at its `pc`: the premises
of the second clause, but for the limit being finite, which is the hardware's own (log entry 3). -/
theorem witness_CallPushesAndJumps_at_the_limit (n : { n : Nat // 0 < n }) :
    let s := writeStack (List.replicate n.val 0x0300#16) (withBytes 0x200 [0x25#8, 0x00#8] State.reset)
    s.stack.length = n.val ∧ s.pc.toNat ≤ 0x0FFE ∧ fetchedWord s = 0x2#4 ++ 0x500#12 :=
  ⟨List.length_replicate, (by decide : State.reset.pc.toNat ≤ 0x0FFE),
    (by decide : fetchedWord (withBytes 0x200 [0x25#8, 0x00#8] State.reset) = 0x2#4 ++ 0x500#12)⟩

theorem witness_OnlyStackFaultsFromHandlers :
    State.reset.stack = [] ∧ ¬ (Instr.cls = .ret ∧ State.reset.stack = []) ∧
      ¬ ∃ nnn n, Instr.cls = .call nnn ∧ Config.stackMax = some n ∧ State.reset.stack.length = n.val := by
  simp [State.reset]

theorem witness_NestedCallsReturnInOrder :
    ∃ t, execAll ([0x456#12].map .call) State.reset = .next t := ⟨_, rfl⟩

theorem witness_JumpToSelfChangesNothing : Ended (withBytes 0x200 [0x12#8, 0x00#8] State.reset) := by
  refine ⟨by decide, by decide⟩

theorem witness_memory_wf : (withBytes 0x300 [0x01#8, 0x00#8, 0x02#8] State.reset).memory.wf :=
  wf_memWriteBytes _ _ wf_reset

theorem witness_StoreThenLoadRestores :
    State.reset.memory.wf ∧ ∃ t, exec (.storeRegs 0xF#4) State.reset = .next t := ⟨wf_reset, _, rfl⟩

theorem witness_DrawXorsEachCellAndReportsCollision :
    let s := withLit [0] (writeI 0x0300#16 (withBytes 0x300 [0x80#8] State.reset))
    spriteHas s 0x0#4 0x0#4 0x1#4 0 0 ∧ getCell s.display 0 0 (by decide) = true ∧
      ¬ spriteHas s 0x0#4 0x0#4 0x0#4 63 31 := by
  refine ⟨⟨0, 0, by decide, by decide, by decide, by decide, by decide⟩, by decide +kernel, ?_⟩
  rintro ⟨r, c, hr, -⟩
  exact absurd hr (Nat.not_lt_zero r)

theorem witness_DrawTwiceRestoresTheDisplay :
    (0x0#4 : Nibble) ≠ 0xF#4 ∧ ∃ t u, exec (.drw 0x0#4 0x0#4 0xF#4) State.reset = .next t ∧
      exec (.drw 0x0#4 0x0#4 0xF#4) t = .next u := ⟨by decide, _, _, rfl, rfl⟩

/-- The premise of the last clause: the screen is dark under every sprite after reset. -/
theorem witness_DrawTwiceRestoresTheDisplay_dark :
    ∀ cx cy h, spriteHas State.reset 0x0#4 0x0#4 0xF#4 cx cy → getCell State.reset.display cx cy h = false := by
  intro cx cy h _
  simp [getCell, State.reset]

theorem witness_KeyWaitTakesOrRepeats :
    State.reset.currentKey = none ∧ (keyDown 0xF#4 State.reset).currentKey = some 0xF#4 := ⟨rfl, rfl⟩

theorem witness_WaitingStepStutters : WaitingForKey (withBytes 0x200 [0xF1#8, 0x0A#8] State.reset) :=
  ⟨by decide, rfl, 0x1#4, by decide⟩

theorem witness_invariants : CoreInv State.reset ∧ StepInv State.reset ∧ ∃ t, step State.reset = .next t :=
  ⟨⟨wf_reset, by decide, by simp, by simp⟩, ⟨by decide, by simp⟩, _, rfl⟩

theorem witness_frames :
    (∃ t, exec (.loadRegs 0x3#4) State.reset = .next t) ∧ ¬ mayWriteReg (.loadRegs 0x3#4) 0x4#4 ∧
      ¬ storesTo (.ldB 0x0#4) State.reset 3 ∧ ¬ WritesI (.ldB 0x0#4) ∧ ¬ WritesPc (.ldB 0x0#4) := by
  refine ⟨⟨_, rfl⟩, by simp [mayWriteReg], ?_, by simp [WritesI], by simp [WritesPc]⟩
  rintro ⟨k, hk, h⟩
  simp [memSize, dataAddr] at h
  omega

theorem witness_FlagsAreZeroOrOne :
    WritesFlag (.shrReg 0x0#4 0xF#4) ∧ (∀ y, (Instr.shrReg 0x0#4 0xF#4) ≠ .shrReg 0xF#4 y) ∧
      ∃ t, exec (.shrReg 0x0#4 0xF#4) State.reset = .next t :=
  ⟨.inl ⟨_, _, .inr (.inr (.inl rfl))⟩, by simp, _, rfl⟩

theorem witness_BadOpcodeTellsUnknownOrSys : ∃ t, execute 0x0123#16 State.reset = .next t := ⟨_, rfl⟩

theorem witness_OnlyKeyCommandsWriteTheKeypad :
    Command.step ≠ .reset ∧ ∀ k, Command.step ≠ .keyDown k ∧ Command.step ≠ .keyUp k := by simp

theorem witness_SoundAndBadOpcodeAreUnobservable :
    unobserved (writeSound 0x07#8 (writeBadOpcode true State.reset)) = unobserved State.reset := rfl

end Sys2Proof.Tests
end

/-! ## The state after reset (10_state.md R41, 70_reset_and_hazards.md R260) -/

namespace Sys2Proof.Machine

/-! ### Reset memory: the font table, and zero elsewhere (R41, R60) -/

/-- The font table fits below the load address for every admissible base, so all of it lies in memory (R7). -/
theorem fontBase_add_lt_loadAddress (base : FontBase) {k : Nat} (hk : k < 80) :
    base.val + k < loadAddress := by
  have := base.isLt
  simp only [loadAddress]
  omega

theorem fontAreaByte_fontBase_add (base : FontBase) (data : FontData) (k : Nat) (hk : k < 80) :
    fontAreaByte base data (base.val + k) = data[k] := by
  have hin : base.val ≤ base.val + k ∧ base.val + k < base.val + 80 := by omega
  simp [fontAreaByte, hin]

theorem fontAreaByte_of_outside (base : FontBase) (data : FontData) (a : Nat)
    (h : a < base.val ∨ base.val + 80 ≤ a) : fontAreaByte base data a = 0x00#8 :=
  dif_neg (by omega)

theorem resetByte_fontBase_add (k : Nat) (hk : k < 80) :
    resetByte (Config.fontBase.val + k) = Config.fontData[k] := by
  have hlow : ¬ loadAddress ≤ Config.fontBase.val + k :=
    Nat.not_le.2 (fontBase_add_lt_loadAddress Config.fontBase hk)
  rw [resetByte, if_neg hlow, fontAreaByte_fontBase_add]

theorem resetByte_of_outside_font (a : Nat)
    (h : a < Config.fontBase.val ∨ Config.fontBase.val + 80 ≤ a) : resetByte a = 0x00#8 := by
  rw [resetByte, fontAreaByte_of_outside _ _ _ h, ite_self]

/-- Memory lists no cell at reset, so an address in range reads as its reset byte. -/
theorem memRead_reset_memory {a : Nat} (ha : a < memSize) :
    memRead State.reset.memory a = resetByte a :=
  congrArg resetByte (Nat.mod_eq_of_lt ha)

theorem memRead_reset_memory_font (k : Nat) (hk : k < 80) :
    memRead State.reset.memory (Config.fontBase.val + k) = Config.fontData[k] := by
  have hmem : Config.fontBase.val + k < memSize :=
    (fontBase_add_lt_loadAddress Config.fontBase hk).trans (by decide)
  rw [memRead_reset_memory hmem, resetByte_fontBase_add k hk]

theorem memRead_reset_memory_of_outside_font {a : Nat} (ha : a < memSize)
    (h : a < Config.fontBase.val ∨ Config.fontBase.val + 80 ≤ a) :
    memRead State.reset.memory a = 0x00#8 := by
  rw [memRead_reset_memory ha, resetByte_of_outside_font a h]

/-! ### Reset registers and keys -/

theorem readV_reset (r : Nibble) : readV State.reset r = 0x00#8 :=
  Vector.getElem_replicate ..

theorem getKey_reset_keys (k : Nibble) : getKey State.reset.keys k = false :=
  Vector.getElem_replicate ..

/-! ### The Reset command -/

/-- Reset keeps only the model's draw counter: the random source has no reset (R39, log entry 4). -/
theorem perform_reset (s : State) :
    perform .reset s = (.ok, { State.reset with draws := s.draws }) := rfl

/-- Settles O47: each item by its law of the reset state, memory by the reset byte of an unlisted cell. -/
theorem resetLeavesTheStatedValues : Obligations.ResetLeavesTheStatedValues := by
  unfold Obligations.ResetLeavesTheStatedValues
  refine ⟨readV_reset, reset_i, reset_pc, reset_stack, getCell_clear, reset_delay, reset_sound,
    getKey_reset_keys, reset_currentKey, reset_badOpcode, ?font, ?zero, ?command⟩
  case font => exact memRead_reset_memory_font
  case zero => exact fun a ha h => memRead_reset_memory_of_outside_font ha h
  case command => exact fun s => ⟨_, perform_reset s, rfl⟩

end Sys2Proof.Machine

/-! ## The decoder and the match and mask table (30_encoding.md R71, R76 to R82) -/

namespace Sys2Proof

/-! ### The word that decodes to an instruction is the instruction's encoding (R75 to R81) -/

theorem formNNN_fieldNNN {op : Word} {m : Nibble} (hm : (fieldMajor op).toNat = m.toNat) :
    formNNN m (fieldNNN op) = op := by
  rw [← BitVec.eq_of_toNat_eq hm, formNNN_fields]

theorem formXNN_fieldX_fieldNN {op : Word} {m : Nibble} (hm : (fieldMajor op).toNat = m.toNat) :
    formXNN m (fieldX op) (fieldNN op) = op := by
  rw [← BitVec.eq_of_toNat_eq hm, formXNN_fields]

theorem formXYN_fieldX_fieldY {op : Word} {m n : Nibble} (hm : (fieldMajor op).toNat = m.toNat)
    (hn : (fieldN op).toNat = n.toNat) : formXYN m (fieldX op) (fieldY op) n = op := by
  rw [← BitVec.eq_of_toNat_eq hm, ← BitVec.eq_of_toNat_eq hn, formXYN_fields]

theorem formXNN_fieldX {op : Word} {m : Nibble} {nn : Byte} (hm : (fieldMajor op).toNat = m.toNat)
    (hnn : (fieldNN op).toNat = nn.toNat) : formXNN m (fieldX op) nn = op := by
  rw [← BitVec.eq_of_toNat_eq hnn, formXNN_fieldX_fieldNN hm]

/-- Family 0 gives `sys` only when the word is neither of the two fixed words (R77). -/
theorem wellFormed_encode_of_decodeFamily0 {op : Word} {i : Instr} (hm : (fieldMajor op).toNat = 0x0)
    (h : decodeFamily0 op = .instr i) : WellFormed i ∧ encode i = op := by
  have hop : formNNN 0x0#4 (fieldNNN op) = op := formNNN_fieldNNN hm
  unfold decodeFamily0 at h
  split at h
  · next hcls => cases h; exact ⟨by decide, hcls.symm⟩
  split at h
  · next hret => cases h; exact ⟨by decide, hret.symm⟩
  · next hcls hret =>
    cases h
    refine ⟨⟨fun e => hcls ?_, fun e => hret ?_⟩, hop⟩
    · rw [← hop, Instr.sys.inj e]; rfl
    · rw [← hop, Instr.sys.inj e]; rfl

theorem wellFormed_encode_of_decodeFamily5 {op : Word} {i : Instr} (hm : (fieldMajor op).toNat = 0x5)
    (h : decodeFamily5 op = .instr i) : WellFormed i ∧ encode i = op := by
  unfold decodeFamily5 at h
  split at h <;> cases h
  next hn => exact ⟨⟨nofun, nofun⟩, formXYN_fieldX_fieldY hm (congrArg _ hn)⟩

theorem wellFormed_encode_of_decodeFamily8 {op : Word} {i : Instr} (hm : (fieldMajor op).toNat = 0x8)
    (h : decodeFamily8 op = .instr i) : WellFormed i ∧ encode i = op := by
  unfold decodeFamily8 at h
  split at h <;> cases h
  all_goals next hn => exact ⟨⟨nofun, nofun⟩, formXYN_fieldX_fieldY hm hn⟩

theorem wellFormed_encode_of_decodeFamily9 {op : Word} {i : Instr} (hm : (fieldMajor op).toNat = 0x9)
    (h : decodeFamily9 op = .instr i) : WellFormed i ∧ encode i = op := by
  unfold decodeFamily9 at h
  split at h <;> cases h
  next hn => exact ⟨⟨nofun, nofun⟩, formXYN_fieldX_fieldY hm (congrArg _ hn)⟩

theorem wellFormed_encode_of_decodeFamilyE {op : Word} {i : Instr} (hm : (fieldMajor op).toNat = 0xE)
    (h : decodeFamilyE op = .instr i) : WellFormed i ∧ encode i = op := by
  unfold decodeFamilyE at h
  split at h <;> cases h
  all_goals next hnn => exact ⟨⟨nofun, nofun⟩, formXNN_fieldX hm hnn⟩

theorem wellFormed_encode_of_decodeFamilyF {op : Word} {i : Instr} (hm : (fieldMajor op).toNat = 0xF)
    (h : decodeFamilyF op = .instr i) : WellFormed i ∧ encode i = op := by
  unfold decodeFamilyF at h
  split at h <;> cases h
  all_goals next hnn => exact ⟨⟨nofun, nofun⟩, formXNN_fieldX hm hnn⟩

theorem wellFormed_encode_of_decode {op : Word} {i : Instr} (h : decode op = .instr i) :
    WellFormed i ∧ encode i = op := by
  unfold decode at h
  split at h
  case h_1 hm => exact wellFormed_encode_of_decodeFamily0 hm h
  case h_6 hm => exact wellFormed_encode_of_decodeFamily5 hm h
  case h_9 hm => exact wellFormed_encode_of_decodeFamily8 hm h
  case h_10 hm => exact wellFormed_encode_of_decodeFamily9 hm h
  case h_15 hm => exact wellFormed_encode_of_decodeFamilyE hm h
  case h_16 =>
    have hm : (fieldMajor op).toNat = 0xF := by simp only [imp_false] at *; omega
    exact wellFormed_encode_of_decodeFamilyF hm h
  case h_2 hm | h_3 hm | h_11 hm | h_12 hm => cases h; exact ⟨⟨nofun, nofun⟩, formNNN_fieldNNN hm⟩
  case h_4 hm | h_5 hm | h_7 hm | h_8 hm | h_13 hm => cases h; exact ⟨⟨nofun, nofun⟩, formXNN_fieldX_fieldNN hm⟩
  case h_14 hm => cases h; exact ⟨⟨nofun, nofun⟩, formXYN_fieldX_fieldY hm rfl⟩

/-! ### The row of the decoded kind selects the word -/

theorem selects_encode : ∀ i : Instr, WellFormed i → selects (kindOfInstr i) (encode i) = true
  | .cls => Laws.RowMatches.cls
  | .ret => Laws.RowMatches.ret
  | .sys nnn => Laws.RowMatches.sys nnn
  | .jp nnn => Laws.RowMatches.jp nnn
  | .call nnn => Laws.RowMatches.call nnn
  | .seImm x nn => Laws.RowMatches.seImm x nn
  | .sneImm x nn => Laws.RowMatches.sneImm x nn
  | .seReg x y => Laws.RowMatches.seReg x y
  | .ldImm x nn => Laws.RowMatches.ldImm x nn
  | .addImm x nn => Laws.RowMatches.addImm x nn
  | .ldReg x y => Laws.RowMatches.ldReg x y
  | .orReg x y => Laws.RowMatches.orReg x y
  | .andReg x y => Laws.RowMatches.andReg x y
  | .xorReg x y => Laws.RowMatches.xorReg x y
  | .addReg x y => Laws.RowMatches.addReg x y
  | .subReg x y => Laws.RowMatches.subReg x y
  | .shrReg x y => Laws.RowMatches.shrReg x y
  | .subnReg x y => Laws.RowMatches.subnReg x y
  | .shlReg x y => Laws.RowMatches.shlReg x y
  | .sneReg x y => Laws.RowMatches.sneReg x y
  | .ldI nnn => Laws.RowMatches.ldI nnn
  | .jpV0 nnn => Laws.RowMatches.jpV0 nnn
  | .rnd x nn => Laws.RowMatches.rnd x nn
  | .drw x y n => Laws.RowMatches.drw x y n
  | .skp x => Laws.RowMatches.skp x
  | .sknp x => Laws.RowMatches.sknp x
  | .ldVxDT x => Laws.RowMatches.ldVxDT x
  | .ldVxK x => Laws.RowMatches.ldVxK x
  | .ldDTVx x => Laws.RowMatches.ldDTVx x
  | .ldSTVx x => Laws.RowMatches.ldSTVx x
  | .addI x => Laws.RowMatches.addI x
  | .ldF x => Laws.RowMatches.ldF x
  | .ldB x => Laws.RowMatches.ldB x
  | .storeRegs x => Laws.RowMatches.storeRegs x
  | .loadRegs x => Laws.RowMatches.loadRegs x

theorem decodeKind_eq_some_iff {op : Word} {k : Kind} :
    decodeKind op = some k ↔ ∃ i, decode op = .instr i ∧ kindOfInstr i = k := by
  unfold decodeKind
  split <;> simp [*]

theorem selects_of_decodeKind {op : Word} {k : Kind} (h : decodeKind op = some k) :
    selects k op = true := by
  obtain ⟨i, hdecode, rfl⟩ := decodeKind_eq_some_iff.1 h
  obtain ⟨hwf, rfl⟩ := wellFormed_encode_of_decode hdecode
  exact selects_encode i hwf

/-! ### A row that selects a word fixes the fields the decoder examines -/

theorem and_kindMask_of_matchesRow {k : Kind} {op : Word} (h : matchesRow k op = true) :
    op &&& kindMask k = kindMatch k := eq_of_beq h

theorem extractLsb'_of_matchesRow {k : Kind} {op : Word} {start len : Nat}
    (hmask : (kindMask k).extractLsb' start len = BitVec.allOnes len) (h : matchesRow k op = true) :
    op.extractLsb' start len = (kindMatch k).extractLsb' start len := by
  rw [← and_kindMask_of_matchesRow h, BitVec.extractLsb'_and, hmask, BitVec.and_allOnes]

/-- Every row's mask covers the major opcode. -/
theorem fieldMajor_of_matchesRow {k : Kind} {op : Word} (h : matchesRow k op = true) :
    fieldMajor op = fieldMajor (kindMatch k) :=
  extractLsb'_of_matchesRow (by cases k <;> rfl) h

theorem fieldN_of_matchesRow {k : Kind} {op : Word} (hmask : fieldN (kindMask k) = BitVec.allOnes 4)
    (h : matchesRow k op = true) : fieldN op = fieldN (kindMatch k) :=
  extractLsb'_of_matchesRow hmask h

theorem fieldNN_of_matchesRow {k : Kind} {op : Word} (hmask : fieldNN (kindMask k) = BitVec.allOnes 8)
    (h : matchesRow k op = true) : fieldNN op = fieldNN (kindMatch k) :=
  extractLsb'_of_matchesRow hmask h

theorem eq_kindMatch_of_matchesRow {k : Kind} {op : Word} (hmask : kindMask k = BitVec.allOnes 16)
    (h : matchesRow k op = true) : op = kindMatch k := by
  rw [← and_kindMask_of_matchesRow h, hmask, BitVec.and_allOnes]

theorem selects_iff {k : Kind} {op : Word} :
    selects k op = true ↔
      matchesRow k op = true ∧ (k = .k0NNN → op ≠ 0x00E0#16 ∧ op ≠ 0x00EE#16) := by
  simp [selects, imp_iff_not_or]

/-- The rows go by mask: in each group the fields that the mask covers are the ones the decoder examines
(R76 to R81). -/
theorem decodeKind_of_selects {op : Word} {k : Kind} (h : selects k op = true) :
    decodeKind op = some k := by
  obtain ⟨hrow, hfixed⟩ := selects_iff.1 h
  have hm := fieldMajor_of_matchesRow hrow
  cases k
  -- The mask covers the whole word.
  case k00E0 | k00EE =>
    rw [eq_kindMatch_of_matchesRow rfl hrow]
    rfl
  -- The mask covers the major opcode alone, and the two fixed words are excluded first (R77).
  case k0NNN =>
    obtain ⟨hcls, hret⟩ := hfixed rfl
    rw [decodeKind, decode, decodeFamily0, if_neg hcls, if_neg hret, hm]
    rfl
  -- The mask covers the last nibble too.
  case k5XY0 | k8XY0 | k8XY1 | k8XY2 | k8XY3 | k8XY4 | k8XY5 | k8XY6 | k8XY7 | k8XYE | k9XY0 =>
    have hn := fieldN_of_matchesRow rfl hrow
    rw [decodeKind, decode, decodeFamily5, decodeFamily8, decodeFamily9, hm, hn]
    rfl
  -- The mask covers the low byte too.
  case kEX9E | kEXA1 | kFX07 | kFX0A | kFX15 | kFX18 | kFX1E | kFX29 | kFX33 | kFX55 | kFX65 =>
    have hnn := fieldNN_of_matchesRow rfl hrow
    rw [decodeKind, decode, decodeFamilyE, decodeFamilyF, hm, hnn]
    rfl
  -- The mask covers the major opcode alone.
  case k1NNN | k2NNN | k3XNN | k4XNN | k6XNN | k7XNN | kANNN | kBNNN | kCXNN | kDXYN =>
    rw [decodeKind, decode, hm]
    rfl

theorem decodeKind_of_matchesRow {op : Word} {k : Kind} (hk : k ≠ .k0NNN)
    (h : matchesRow k op = true) : decodeKind op = some k :=
  decodeKind_of_selects (selects_of_matches hk (and_kindMask_of_matchesRow h))

/-- Settles O5: forwards because the word is the encoding of what it decodes to, backwards because the
row fixes every field the decoder examines. Disjointness follows: two rows other than `0NNN` that match
one word are both the decoder's kind of it. -/
theorem kindIsTheSelectedRow : Obligations.KindIsTheSelectedRow := by
  unfold Obligations.KindIsTheSelectedRow
  refine ⟨fun op k => ⟨selects_of_decodeKind, decodeKind_of_selects⟩, fun op k k' hk hk' h h' => ?_⟩
  exact Option.some.inj <|
    (decodeKind_of_matchesRow hk h).symm.trans (decodeKind_of_matchesRow hk' h')

end Sys2Proof

/-! ## Fetch, Execute and Step (40_execution_cycle.md R101 to R107) -/

namespace Sys2Proof.Machine

/-! ### What the commands Fetch, Execute and Step do with an outcome (R222) -/

theorem perform_fetch_of_fault {s : State} {f : Fault} (h : fetch s = .fault f) :
    perform .fetch s = (.fault f, s) := by
  show performFetch s = _
  rw [performFetch, h]

theorem perform_execute_of_next {op : Word} {s t : State} (h : execute op s = .next t) :
    perform (.execute op) s = (.ok, t) := by
  show performExecute op s = _
  rw [performExecute, h, finish]

theorem perform_execute_of_fault {op : Word} {s : State} {f : Fault} (h : execute op s = .fault f) :
    perform (.execute op) s = (.fault f, writeBadOpcode false s) := by
  show performExecute op s = _
  rw [performExecute, h, finish]

theorem perform_step_of_fetch_fault {s : State} {f : Fault} (h : fetch s = .fault f) :
    perform .step s = (.fault f, s) := by
  show performStep s = _
  rw [performStep, h]

/-- After a Fetch that succeeds, Step is the command Execute of the fetched opcode (R107). -/
theorem perform_step_of_fetch_next {s s₁ : State} {op : Word} (h : fetch s = .next (op, s₁)) :
    perform .step s = perform (.execute op) s₁ := by
  show performStep s = performExecute op s₁
  rw [performStep, h]

theorem step_of_fetch_fault {s : State} {f : Fault} (h : fetch s = .fault f) : step s = .fault f := by
  rw [step, fetchExecute, h]

theorem step_of_fetch_next {s s₁ : State} {op : Word} (h : fetch s = .next (op, s₁)) :
    step s = execute op s₁ := by
  rw [step, fetchExecute, h]

/-- A Fetch that succeeds reads in range and advances `pc`, nothing else (R101). -/
theorem fetch_next {s s₁ : State} {op : Word} (h : fetch s = .next (op, s₁)) :
    s.pc.toNat ≤ 0x0FFE ∧ op = fetchedWord s ∧ s₁ = writePc (s.pc + 2#16) s := by
  by_cases hpc : s.pc.toNat ≤ 0x0FFE
  · rw [fetch_in s hpc] at h
    cases h
    exact ⟨hpc, rfl, rfl⟩
  · rw [fetch_out s (Nat.not_le.1 hpc)] at h
    cases h

/-! ### Fetch -/

/-- Two bytes in fetch order, by shift and or as R101 writes them. -/
theorem opcodeOfBytes_eq_shiftLeft_or (hi lo : Byte) :
    opcodeOfBytes hi lo = hi.setWidth 16 <<< 8 ||| lo.setWidth 16 :=
  (BitVec.setWidth_eq (hi ++ lo)).symm.trans BitVec.setWidth_append_eq_shiftLeft_setWidth_or

/-- Settles O7: in range by the byte order of the opcode, out of range by the fault. -/
theorem fetchIsBigEndianAndAdvancesPc : Obligations.FetchIsBigEndianAndAdvancesPc := by
  unfold Obligations.FetchIsBigEndianAndAdvancesPc
  intro s
  split
  · next hpc => exact fetch_out s hpc
  · next hpc =>
    rw [fetch_in s (Nat.not_lt.1 hpc), memReadOpcode, opcodeOfBytes_eq_shiftLeft_or]
    rfl

/-- Settles O8: the Fetch faults, and each of the two commands keeps the state of a faulting Fetch. -/
theorem outOfRangeFetchChangesNothing : Obligations.OutOfRangeFetchChangesNothing := by
  unfold Obligations.OutOfRangeFetchChangesNothing
  intro s hpc
  have hfetch := fetch_out s hpc
  exact ⟨perform_fetch_of_fault hfetch, perform_step_of_fetch_fault hfetch, step_of_fetch_fault hfetch⟩

/-! ### Execute and Step -/

/-- Settles O10: `execute` by the decoder's answer, the command by the handler's. -/
theorem executeClearsBadOpcodeAndDispatches : Obligations.ExecuteClearsBadOpcodeAndDispatches := by
  unfold Obligations.ExecuteClearsBadOpcodeAndDispatches
  exact fun op s => ⟨fun i => execute_instr s, fun w => execute_unknown s,
    fun t => perform_execute_of_next, fun f => perform_execute_of_fault⟩

/-- Settles O11: by whether Fetch faults. When it does not, Step is the command Execute in the state with
`pc` advanced, so a handler's fault leaves that state with `bad_opcode` cleared. -/
theorem stepIsFetchThenExecute : Obligations.StepIsFetchThenExecute := by
  unfold Obligations.StepIsFetchThenExecute
  refine fun s => ⟨fun f h => ⟨step_of_fetch_fault h, perform_step_of_fetch_fault h⟩, fun op s₁ h => ?_⟩
  obtain ⟨-, -, rfl⟩ := fetch_next h
  rw [perform_step_of_fetch_next h]
  exact ⟨step_of_fetch_next h, fun t => perform_execute_of_next, fun f => perform_execute_of_fault⟩

/-! ### The words that set `bad_opcode` (R105, R106) -/

/-- Settles O12: `Unknown`'s handler sets the flag, under Execute and, in the state Fetch leaves, under
Step. -/
theorem unknownWordIsFlaggedNoOp : Obligations.UnknownWordIsFlaggedNoOp := by
  unfold Obligations.UnknownWordIsFlaggedNoOp
  intro s op w hop
  refine ⟨perform_execute_of_next (execute_unknown s hop), fun hpc hfetched => ?_⟩
  subst hfetched
  rw [step_in s hpc]
  exact execute_unknown _ hop

/-- Every word up to 0x0FFF is of family 0, and but for the two fixed words it is `0NNN` (R77). -/
theorem decode_eq_sys {op : Word} (hop : op.toNat ≤ 0x0FFF) (hcls : op ≠ 0x00E0#16)
    (hret : op ≠ 0x00EE#16) : decode op = .instr (.sys (fieldNNN op)) := by
  have hmajor : (fieldMajor op).toNat = 0 := by
    rw [fieldMajor, BitVec.extractLsb'_toNat, Nat.shiftRight_eq_div_pow]
    omega
  rw [decode, hmajor]
  show decodeFamily0 op = _
  rw [decodeFamily0, if_neg hcls, if_neg hret]

/-- Settles O13: the handler ignores `NNN`, and it is the one that every family-0 word but the two fixed
ones runs. -/
theorem sysSetsBadOpcodeOnly : Obligations.SysSetsBadOpcodeOnly := by
  unfold Obligations.SysSetsBadOpcodeOnly
  refine ⟨fun nnn s => exec_sys s nnn, fun op s hop hcls hret => ?_⟩
  have hdecode := decode_eq_sys hop hcls hret
  exact perform_execute_of_next ((execute_instr s hdecode).trans (exec_sys _ _))

end Sys2Proof.Machine

/-! ## Control flow (41_control_flow.md R120 to R127) -/

namespace Sys2Proof.Machine

/-! ### Return (R120) -/

/-- In range, the command Step is the command Execute of the fetched word, after Fetch's advance of `pc`
(R107). -/
theorem perform_step_in {s : State} (h : s.pc.toNat ≤ 0x0FFE) :
    perform .step s = perform (.execute (fetchedWord s)) (writePc (s.pc + 2#16) s) :=
  perform_step_of_fetch_next (fetch_in s h)

theorem execute_ret (s : State) : execute 0x00EE#16 s = exec .ret (writeBadOpcode false s) :=
  execute_instr s (by decide)

theorem perform_execute_ret_nil {s : State} (h : s.stack = []) :
    perform (.execute 0x00EE#16) s = (.fault .stackUnderflow, writeBadOpcode false s) :=
  perform_execute_of_fault ((execute_ret s).trans (exec_ret_nil _ h))

/-- Settles O15: by the handler on either stack; the two commands' states follow from the empty stack, which
neither clearing `bad_opcode` nor Fetch touches. -/
theorem returnPopsOrUnderflows : Obligations.ReturnPopsOrUnderflows := by
  unfold Obligations.ReturnPopsOrUnderflows
  refine ⟨fun s => exec_ret_cons s, fun s hempty => ?_⟩
  refine ⟨exec_ret_nil s hempty, perform_execute_ret_nil hempty, fun hpc hfetched => ?_⟩
  rw [perform_step_in hpc, hfetched]
  exact perform_execute_ret_nil hempty

/-! ### Jump and call (R121, R122) -/

/-- Settles O16: the zero-extension of the field is the word of its number. -/
theorem jumpLoadsPc : Obligations.JumpLoadsPc := by
  unfold Obligations.JumpLoadsPc
  intro nnn s
  rw [BitVec.ofNat_toNat]
  exact exec_jp s nnn

theorem stackFull_eq_false_iff (limit : StackLimit) (st : Stack) :
    stackFull limit st = false ↔ ∀ n, limit = some n → st.length ≠ n.val := by
  simp only [← Bool.not_eq_true, stackFull_iff, not_exists, not_and, ne_eq]

/-- Settles O17: by whether the stack is full under the limit, which is when the limit equals the depth. -/
theorem callUnderAnyLimit : Obligations.CallUnderAnyLimit := by
  unfold Obligations.CallUnderAnyLimit
  refine ⟨fun limit nnn s => ⟨fun hroom => ?room, fun hfull => ?full⟩, fun nnn s => exec_call s nnn⟩
  case room =>
    rw [BitVec.ofNat_toNat]
    exact callWithin_room s nnn ((stackFull_eq_false_iff limit s.stack).2 hroom)
  case full => exact callWithin_full s nnn ((stackFull_iff limit s.stack).2 hfull)

/-! ### Compare and skip (R123 to R126) -/

theorem skipIf_beq (s : State) (a b : Byte) :
    skipIf (a == b) s = if a.toNat = b.toNat then writePc (s.pc + 2#16) s else s :=
  if_congr (beq_iff_eq.trans BitVec.toNat_inj.symm) rfl rfl

theorem skipIf_bne (s : State) (a b : Byte) :
    skipIf (a != b) s = if a.toNat = b.toNat then s else writePc (s.pc + 2#16) s :=
  (if_congr (bne_iff_ne.trans (not_congr BitVec.toNat_inj.symm)) rfl rfl).trans (ite_not ..)

/-- Settles O20: each of the four answers a skip on the equality of two bytes or on its negation. -/
theorem compareAndSkip : Obligations.CompareAndSkip := by
  unfold Obligations.CompareAndSkip
  intro s x y nn
  rw [exec_seImm, exec_sneImm, exec_seReg, exec_sneReg, skipIf_beq, skipIf_bne, skipIf_beq, skipIf_bne]
  exact ⟨rfl, rfl, rfl, rfl⟩

/-! ### Indexed jump (R127) -/

/-- A 12-bit field and a byte add up below 2^16, so the sum does not wrap before the mask. -/
theorem indexedTarget_toNat (nnn : Addr) (v0 : Byte) :
    (indexedTarget nnn v0).toNat = nnn.toNat + v0.toNat := by
  unfold indexedTarget
  bv_omega

theorem indexedTarget_mask12 (nnn : Addr) (v0 : Byte) :
    indexedTarget nnn v0 &&& 0x0FFF#16 = BitVec.ofNat 16 ((nnn.toNat + v0.toNat) % 4096) := by
  rw [← indexedTarget_toNat, ← mask12_toNat, BitVec.ofNat_toNat, BitVec.setWidth_eq]

/-- Settles O21: the mask is the reduction modulo 4096 of the unwrapped sum. -/
theorem indexedJumpMasksItsTarget : Obligations.IndexedJumpMasksItsTarget := by
  unfold Obligations.IndexedJumpMasksItsTarget
  intro nnn s
  rw [exec_jpV0, indexedTarget_mask12]
  rfl

end Sys2Proof.Machine

/-! ## Registers and arithmetic (42_register_alu.md R140 to R150) -/

namespace Sys2Proof.Machine

/-! ### Each kind of answer, as the state it leaves and every register read back from it -/

theorem exists_next_of_writeV {i : Instr} {s : State} {x : Nibble} {a : Byte}
    (h : exec i s = .next (writeV x a s)) :
    ∃ t, exec i s = .next t ∧ t = { s with v := t.v } ∧
      ∀ r, readV t r = if r = x then a else readV s r :=
  ⟨_, h, rfl, fun r => readV_writeV s x r a⟩

/-- `VF` reads as the flag, the destination `VF` too: the flag is written last. -/
theorem exists_next_of_resultThenFlag {i : Instr} {s : State} {x : Nibble} {a f : Byte}
    (h : exec i s = .next (resultThenFlag x a f s)) :
    ∃ t, exec i s = .next t ∧ t = { s with v := t.v } ∧
      ∀ r, readV t r = if r = 0xF#4 then f else if r = x then a else readV s r :=
  ⟨_, h, resultThenFlag_frame s x a f, fun r => readV_resultThenFlag s x r a f⟩

/-- The destination reads as the result, also when it is `VF`: the result is written last. -/
theorem exists_next_of_flagThenResult {i : Instr} {s : State} {x : Nibble} {a f : Byte}
    (h : exec i s = .next (flagThenResult x a f s)) :
    ∃ t, exec i s = .next t ∧ t = { s with v := t.v } ∧
      ∀ r, readV t r = if r = x then a else if r = 0xF#4 then f else readV s r :=
  ⟨_, h, flagThenResult_frame s x a f, fun r => readV_flagThenResult s x r a f⟩

/-! ### Results and flags in plain arithmetic -/

theorem add_eq_ofNat_mod (a b : Byte) : a + b = BitVec.ofNat 8 ((a.toNat + b.toNat) % 256) := by
  bv_omega

theorem sub_eq_ofNat_mod (a b : Byte) : a - b = BitVec.ofNat 8 ((a.toNat + 256 - b.toNat) % 256) := by
  bv_omega

theorem ushiftRight_one_eq_ofNat_div (b : Byte) : b >>> 1 = BitVec.ofNat 8 (b.toNat / 2) := by
  bv_omega

theorem shiftLeft_one_eq_ofNat_mod (b : Byte) : b <<< 1 = BitVec.ofNat 8 (2 * b.toNat % 256) := by
  bv_omega

theorem flagByte_carryOf (a b : Byte) :
    flagByte (carryOf a b) = if 255 < a.toNat + b.toNat then 1#8 else 0#8 := by
  simp only [flagByte, carryOf, decide_eq_true_eq]

theorem flagByte_notBorrowOf (a b : Byte) :
    flagByte (notBorrowOf a b) = if a.toNat < b.toNat then 0#8 else 1#8 := by
  simp only [flagByte, notBorrowOf, Bool.not_eq_true', decide_eq_false_iff_not, ite_not]

theorem lowBitOf_eq_ofNat_mod (b : Byte) : lowBitOf b = BitVec.ofNat 8 (b.toNat % 2) := by
  have hbit : (lowBitOf b).toNat = b.toNat % 2 := (BitVec.toNat_and b 0x01#8).trans (Nat.and_one_is_mod _)
  bv_omega

theorem highBitOf_eq_lowBitOf_ushiftRight (b : Byte) : highBitOf b = lowBitOf (b >>> 7) :=
  BitVec.ushiftRight_and_distrib b 0x80#8 7

/-- A byte shifted right by 7 is at most 1, so taking its bit 0 changes nothing. -/
theorem highBitOf_eq_ofNat_div (b : Byte) : highBitOf b = BitVec.ofNat 8 (b.toNat / 128) := by
  rw [highBitOf_eq_lowBitOf_ushiftRight, lowBitOf_eq_ofNat_mod]
  bv_omega

/-! ### Loads, copies and bitwise operations, without a flag (R140 to R145) -/

/-- Settles O23: each writes one register, the second one the sum modulo 256. -/
theorem immediateLoadAndAdd : Obligations.ImmediateLoadAndAdd := by
  unfold Obligations.ImmediateLoadAndAdd
  intro s x nn
  rw [← add_eq_ofNat_mod]
  exact ⟨exists_next_of_writeV (exec_ldImm s x nn), exists_next_of_writeV (exec_addImm s x nn)⟩

/-- Settles O24: each writes one register. -/
theorem copyAndLogic : Obligations.CopyAndLogic := by
  unfold Obligations.CopyAndLogic
  exact fun s x y => ⟨exists_next_of_writeV (exec_ldReg s x y), exists_next_of_writeV (exec_orReg s x y),
    exists_next_of_writeV (exec_andReg s x y), exists_next_of_writeV (exec_xorReg s x y)⟩

/-! ### Sums and differences: the flag is written last (R146, R147, R149) -/

/-- Settles O25: the sum, then the carry. -/
theorem addSetsCarry : Obligations.AddSetsCarry := by
  unfold Obligations.AddSetsCarry
  intro s x y
  rw [← flagByte_carryOf, ← add_eq_ofNat_mod]
  exact exists_next_of_resultThenFlag (exec_addReg s x y)

/-- Settles O26: the difference, then the not-borrow. -/
theorem subSetsNotBorrow : Obligations.SubSetsNotBorrow := by
  unfold Obligations.SubSetsNotBorrow
  intro s x y
  rw [← flagByte_notBorrowOf, ← sub_eq_ofNat_mod]
  exact exists_next_of_resultThenFlag (exec_subReg s x y)

/-- Settles O28: as O26, with the operands exchanged. -/
theorem subnSetsNotBorrow : Obligations.SubnSetsNotBorrow := by
  unfold Obligations.SubnSetsNotBorrow
  intro s x y
  rw [← flagByte_notBorrowOf, ← sub_eq_ofNat_mod]
  exact exists_next_of_resultThenFlag (exec_subnReg s x y)

/-! ### Shifts: the result is written last (R148, R150) -/

/-- Settles O27: bit 0, then the half. -/
theorem shiftRightReadsY : Obligations.ShiftRightReadsY := by
  unfold Obligations.ShiftRightReadsY
  intro s x y
  rw [← ushiftRight_one_eq_ofNat_div, ← lowBitOf_eq_ofNat_mod]
  exact exists_next_of_flagThenResult (exec_shrReg s x y)

/-- Settles O29: bit 7, then the double modulo 256. -/
theorem shiftLeftReadsY : Obligations.ShiftLeftReadsY := by
  unfold Obligations.ShiftLeftReadsY
  intro s x y
  rw [← shiftLeft_one_eq_ofNat_mod, ← highBitOf_eq_ofNat_div]
  exact exists_next_of_flagThenResult (exec_shlReg s x y)

end Sys2Proof.Machine

/-! ## Index register and memory (43_index_memory.md R170 to R175) -/

namespace Sys2Proof.Machine

/-! ### The index register: every write is masked to 12 bits (R25) -/

theorem writeI_i_toNat (a : Word) (s : State) : (writeI a s).i.toNat = a.toNat % 4096 := mask12_toNat a

theorem writeI_eq_ofNat {a : Word} {n : Nat} (s : State) (h : a.toNat % 4096 = n) :
    writeI a s = { s with i := BitVec.ofNat 16 n } := by
  rw [← h, ← mask12_toNat, BitVec.ofNat_toNat, BitVec.setWidth_eq]
  rfl

/-- Settles O31: a 12-bit field is below 4096, and the mask of the sum is its reduction modulo 4096. -/
theorem indexLoadAndAdd : Obligations.IndexLoadAndAdd := by
  unfold Obligations.IndexLoadAndAdd
  intro s x nnn
  have hload : (nnn.setWidth 16).toNat % 4096 = nnn.toNat := by bv_omega
  have hadd : (s.i + (readV s x).setWidth 16).toNat % 4096 = (s.i.toNat + (readV s x).toNat) % 4096 := by
    bv_omega
  rw [exec_ldI, exec_addI, writeI_eq_ofNat s hload, writeI_eq_ofNat s hadd]
  exact ⟨rfl, rfl⟩

/-! ### Glyph addresses (R172) -/

/-- The last glyph begins at 0x01FB under the highest admissible font base, 432. -/
theorem fontBase_add_glyph_le (base : FontBase) (n : Nat) : base.val + 5 * (n % 16) ≤ 0x01FB := by
  have := base.isLt
  omega

theorem lowNibble_toNat (b : Byte) : (lowNibble b).toNat = b.toNat % 16 := BitVec.toNat_setWidth 4 b

theorem glyphAddr_toNat_mod (base : FontBase) (b : Byte) :
    (glyphAddr base b).toNat % 4096 = base.val + 5 * (b.toNat % 16) := by
  have hle := fontBase_add_glyph_le base b.toNat
  rw [glyphAddr, lowNibble_toNat, BitVec.toNat_ofNat]
  omega

theorem ldFWith_eq_ofNat (base : FontBase) (x : Nibble) (s : State) :
    ldFWith base x s =
      .next { s with i := BitVec.ofNat 16 (base.val + 5 * ((readV s x).toNat % 16)) } := by
  rw [ldFWith, writeI_eq_ofNat s (glyphAddr_toNat_mod base (readV s x))]

/-- Settles O32: every glyph address is below 4096, so the mask keeps it; `FX29` is the case of this
hardware's font base. -/
theorem glyphAddressIsLoaded : Obligations.GlyphAddressIsLoaded := by
  unfold Obligations.GlyphAddressIsLoaded
  exact ⟨fun base x s => ⟨ldFWith_eq_ofNat base x s, fontBase_add_glyph_le base _⟩,
    ldFWith_eq_ofNat Config.fontBase⟩

/-! ### Decimal digits (R173) -/

theorem memRead_memWriteBytes_decimalDigits {m : Memory} (hm : m.wf) (i a : Nat) (b : Byte) :
    memRead (memWriteBytes i (decimalDigits b) m) a =
      if a % 4096 = i % 4096 then BitVec.ofNat 8 (b.toNat / 100)
      else if a % 4096 = (i + 1) % 4096 then BitVec.ofNat 8 (b.toNat / 10 % 10)
      else if a % 4096 = (i + 2) % 4096 then BitVec.ofNat 8 (b.toNat % 10)
      else memRead m a := by
  have hlen := decimalDigits_length b
  obtain ⟨hstored, hkept⟩ := memRead_memWriteBytes m hm i a (decimalDigits b) (by rw [hlen]; decide)
  split_ifs with h0 h1 h2
  · exact hstored 0 (by omega) h0
  · exact hstored 1 (by omega) h1
  · exact hstored 2 (by omega) h2
  · refine hkept fun k hk => ?_
    match k, hk with
    | 0, _ => exact h0
    | 1, _ => exact h1
    | 2, _ => exact h2

/-- Settles O33: the three digits are written in order, and `I` is not. -/
theorem bcdStoresThreeDigits : Obligations.BcdStoresThreeDigits := by
  unfold Obligations.BcdStoresThreeDigits
  exact fun s x hm => ⟨_, exec_ldB s x, rfl, fun a => memRead_memWriteBytes_decimalDigits hm s.i.toNat a _⟩

/-! ### Register transfers (R174, R175) -/

theorem advancedI_toNat_mod (i : Word) (x : Nibble) :
    (advancedI i x).toNat % 4096 = (i.toNat + x.toNat + 1) % 4096 := by
  unfold advancedI
  bv_omega

/-- At most sixteen bytes are stored, so no store overwrites an earlier one at an address modulo 4096. -/
theorem memRead_memWriteBytes_firstRegs {m : Memory} (hm : m.wf) (v : Regs) (i : Nat) (x r : Nibble)
    (hr : r.toNat ≤ x.toNat) :
    memRead (memWriteBytes i (firstRegs v (x.toNat + 1)) m) (i + r.toNat) = getReg v r := by
  have hlen := firstRegs_length v (x.toNat + 1)
  obtain ⟨hstored, -⟩ := memRead_memWriteBytes m hm i (i + r.toNat) (firstRegs v (x.toNat + 1))
    (by rw [hlen, memSize]; omega)
  rw [hstored r.toNat (by omega) rfl, firstRegs_getElem, BitVec.ofNat_toNat, BitVec.setWidth_eq]

theorem memRead_memWriteBytes_firstRegs_of_outside {m : Memory} (hm : m.wf) (v : Regs) (i a : Nat)
    (x : Nibble) (ha : ∀ k ≤ x.toNat, a % 4096 ≠ (i + k) % 4096) :
    memRead (memWriteBytes i (firstRegs v (x.toNat + 1)) m) a = memRead m a := by
  have hlen := firstRegs_length v (x.toNat + 1)
  obtain ⟨-, hkept⟩ := memRead_memWriteBytes m hm i a (firstRegs v (x.toNat + 1))
    (by rw [hlen, memSize]; omega)
  exact hkept fun k hk => ha k (by omega)

/-- Settles O34: the stored bytes, the other bytes and the new `I`, each by its lemma. -/
theorem storeRegistersAndAdvance : Obligations.StoreRegistersAndAdvance := by
  unfold Obligations.StoreRegistersAndAdvance
  intro s x hm
  refine ⟨_, exec_storeRegs s x, rfl, ?advanced, ?stored, ?kept⟩
  case advanced => rw [writeI_i_toNat, advancedI_toNat_mod]
  case stored => exact fun r hr => memRead_memWriteBytes_firstRegs hm s.v s.i.toNat x r hr
  case kept => exact fun a ha => memRead_memWriteBytes_firstRegs_of_outside hm s.v s.i.toNat a x ha

/-- Settles O35: the loaded and the kept registers by the law of the transfer, and the new `I`. -/
theorem loadRegistersAndAdvance : Obligations.LoadRegistersAndAdvance := by
  unfold Obligations.LoadRegistersAndAdvance
  intro s x
  refine ⟨_, exec_loadRegs s x, rfl, ?advanced, fun r => ?registers⟩
  case advanced => rw [writeI_i_toNat, advancedI_toNat_mod]
  case registers =>
    have hread := getReg_loadFirstRegs s.memory s.i (x.toNat + 1) x.isLt s.v r
    simp only [Nat.lt_succ_iff] at hread
    exact hread

end Sys2Proof.Machine

/-! ## Display (44_display.md R190, R191) -/

namespace Sys2Proof.Machine

/-! ### Clear (R190) -/

/-- Settles O37: the display that the handler writes is the clear one. -/
theorem clearScreenDarkensEveryCell : Obligations.ClearScreenDarkensEveryCell := by
  unfold Obligations.ClearScreenDarkensEveryCell
  exact fun s => ⟨_, exec_cls s, rfl, getCell_clear⟩

/-! ### The sprite's set bits, by cells of the screen (R191) -/

theorem spriteBytes_length (m : Memory) (i : Word) (n : Nat) : (spriteBytes m i n).length = n := by
  simp [spriteBytes]

theorem spriteBytes_getD (m : Memory) (i : Word) {n r : Nat} (hr : r < n) (d : Byte) :
    (spriteBytes m i n).getD r d = memRead m (i.toNat + r) := by
  simp [spriteBytes, dataAddr, hr]

/-- The row and the column of a cell within the sprite are its distances from the wrapped origin. -/
theorem covers_spriteBytes_iff_spriteHas (s : State) (x y n : Nibble) (cx cy : Nat) :
    covers (originX (readV s x)) (originY (readV s y)) (spriteBytes s.memory s.i n.toNat) cx cy = true ↔
      spriteHas s x y n cx cy := by
  rw [covers_eq_true, spriteBytes_length]
  constructor
  · rintro ⟨⟨hy, hr, hx, hc⟩, hbit⟩
    rw [spriteBytes_getD _ _ (by omega)] at hbit
    exact ⟨_, _, by omega, by omega, (Nat.add_sub_cancel' hy).symm, (Nat.add_sub_cancel' hx).symm, hbit⟩
  · rintro ⟨r, c, hr, hc, rfl, rfl, hbit⟩
    simp only [originX, originY, Nat.add_sub_cancel_left, spriteBytes_getD _ _ hr]
    exact ⟨by omega, hbit⟩

/-! ### Draw (R191) -/

section
variable (s : State) (x y n : Nibble)

theorem getCell_drawn_of_spriteHas {cx cy : Nat} (h : cx < 64 ∧ cy < 32) (hset : spriteHas s x y n cx cy) :
    getCell (drawn s x y n).1 cx cy h = !getCell s.display cx cy h := by
  rw [drawn, drawRows_cell, (covers_spriteBytes_iff_spriteHas s x y n cx cy).2 hset, Bool.xor_true]

theorem getCell_drawn_of_not_spriteHas {cx cy : Nat} (h : cx < 64 ∧ cy < 32)
    (hclear : ¬ spriteHas s x y n cx cy) :
    getCell (drawn s x y n).1 cx cy h = getCell s.display cx cy h := by
  rw [← covers_spriteBytes_iff_spriteHas, Bool.not_eq_true] at hclear
  rw [drawn, drawRows_cell, hclear, Bool.xor_false]

theorem drawn_collision_iff :
    (drawn s x y n).2 = true ↔
      ∃ cx cy h, getCell s.display cx cy h = true ∧ spriteHas s x y n cx cy := by
  simp only [drawn, drawRows_collision, covers_spriteBytes_iff_spriteHas, Bool.false_eq_true, false_or]

end

/-- Settles O38: each cell by whether the sprite has a set bit there, `VF` by whether a collision is met. -/
theorem drawXorsEachCellAndReportsCollision : Obligations.DrawXorsEachCellAndReportsCollision := by
  unfold Obligations.DrawXorsEachCellAndReportsCollision
  intro s x y n
  refine ⟨_, exec_drw s x y n, rfl, fun cx cy h => ⟨?xored, ?kept⟩, fun hmet => ?collision,
    fun hunmet => ?noCollision, fun r hr => ?registers⟩
  case xored => exact getCell_drawn_of_spriteHas s x y n h
  case kept => exact getCell_drawn_of_not_spriteHas s x y n h
  case collision =>
    rw [readV_writeDisplay, readV_writeFlag, if_pos rfl, (drawn_collision_iff s x y n).2 hmet]
    rfl
  case noCollision =>
    rw [← drawn_collision_iff, Bool.not_eq_true] at hunmet
    rw [readV_writeDisplay, readV_writeFlag, if_pos rfl, hunmet]
    rfl
  case registers => rw [readV_writeDisplay, readV_writeFlag, if_neg hr]

end Sys2Proof.Machine

/-! ## Keypad and timers (45_keypad_timer_instructions.md R200 to R206) -/

namespace Sys2Proof.Machine

/-! ### Skips on a key (R200, R201) -/

/-- The mask `& 0x0F` as a reduction modulo 16: the number of the key that `V[X]` names. -/
theorem lowNibble_eq_ofNat_mod (b : Byte) : lowNibble b = BitVec.ofNat 4 (b.toNat % 16) := by
  rw [← lowNibble_toNat, BitVec.ofNat_toNat, BitVec.setWidth_eq]

theorem skipIf_not (s : State) (c : Bool) :
    skipIf (!c) s = if c = true then s else writePc (s.pc + 2#16) s := by
  cases c <;> rfl

/-- Settles O40: one skips on the state of the key, the other on its negation. -/
theorem keySkips : Obligations.KeySkips := by
  unfold Obligations.KeySkips
  intro s x
  rw [exec_skp, exec_sknp, skipIf_not, lowNibble_eq_ofNat_mod]
  exact ⟨rfl, rfl⟩

/-! ### Waiting for a key (R202) -/

/-- Settles O41: by whether a key is current; a key's number is its zero-extension to a byte. -/
theorem keyWaitTakesOrRepeats : Obligations.KeyWaitTakesOrRepeats := by
  unfold Obligations.KeyWaitTakesOrRepeats
  refine fun s x => ⟨fun hnone => ?repeats, fun k hsome => ?takes⟩
  case repeats => exact exec_ldVxK_none s x hnone
  case takes =>
    rw [BitVec.ofNat_toNat]
    exact exists_next_of_writeV (exec_ldVxK_some s x k hsome)

/-! ### The timers (R204 to R206) -/

/-- Settles O43: one write each, of `V[X]`, of `delay` and of `sound`. -/
theorem timerAccess : Obligations.TimerAccess := by
  unfold Obligations.TimerAccess
  exact fun s x => ⟨exists_next_of_writeV (exec_ldVxDT s x), exec_ldDTVx s x, exec_ldSTVx s x⟩

end Sys2Proof.Machine

/-! ## The host's timer and keypad commands (60_exceptions.md R236, R237, R240, R241) -/

namespace Sys2Proof.Machine

/-! ### The timers count down to zero (R236, R237) -/

theorem countDown_of_ne_zero {b : Byte} (h : b ≠ 0x00#8) :
    countDown b = BitVec.ofNat 8 (b.toNat - 1) := by
  rw [countDown, if_neg h]
  bv_omega

/-- The reply and the next state of one decrement; `write` puts the counter `b` into the state. -/
theorem countedReply_eq (b : Byte) (write : Byte → State) :
    (Reply.bool (didCount b), write (countDown b)) =
      if b.toNat = 0 then (.bool false, write b)
      else (.bool true, write (BitVec.ofNat 8 (b.toNat - 1))) := by
  by_cases hb : b = 0x00#8
  · subst hb
    rfl
  · have hcount : didCount b = true := bne_iff_ne.2 hb
    have hpos : b.toNat ≠ 0 := fun h0 => hb (BitVec.eq_of_toNat_eq h0)
    rw [if_neg hpos, hcount, countDown_of_ne_zero hb]

/-- Settles O44: both timers decrement alike; a counter at 0 is written back, which leaves the state as it
was. -/
theorem timersCountDownToZero : Obligations.TimersCountDownToZero := by
  unfold Obligations.TimersCountDownToZero
  exact fun s => ⟨countedReply_eq s.delay (writeDelay · s), countedReply_eq s.sound (writeSound · s)⟩

/-! ### The keypad (R240, R241) -/

theorem perform_keyDown (k : Nibble) (s : State) :
    perform (.keyDown k) s = (.ok, { s with keys := setKey k true s.keys, currentKey := some k }) := rfl

theorem perform_keyUp (k : Nibble) (s : State) :
    perform (.keyUp k) s = (.ok, { s with keys := setKey k false s.keys, currentKey := none }) := rfl

/-- Settles O45: each command sets one key of the keypad and the current key. -/
theorem keyCommands : Obligations.KeyCommands := by
  unfold Obligations.KeyCommands
  refine fun s k => ⟨⟨_, perform_keyDown k s, rfl, fun j => ?down⟩, _, perform_keyUp k s, rfl, fun j => ?up⟩
  case down => exact getKey_setKey s.keys k j true
  case up => exact getKey_setKey s.keys k j false

end Sys2Proof.Machine

/-! ## The host's Load (70_reset_and_hazards.md R262) -/

namespace Sys2Proof.Machine

theorem perform_load (rom : List Byte) (s : State) :
    perform (.load rom) s =
      (.ok, { s with memory := memWriteBytes loadAddress (romFits rom) s.memory }) := rfl

theorem romFits_length (rom : List Byte) : (romFits rom).length = min 3584 rom.length := by
  rw [romFits, List.length_take, memSize, loadAddress]

theorem romFits_getElem (rom : List Byte) {k : Nat} (hk : k < (romFits rom).length) :
    (romFits rom)[k] = rom[k]'(by have := romFits_length rom; omega) := by
  simp only [romFits, List.getElem_take]

/-- What fits ends at the end of memory at the latest, so no byte of the ROM wraps to address 0; and an
address below 4096 is within what fits as soon as it is within the ROM. -/
theorem memRead_memWriteBytes_romFits {m : Memory} (hm : m.wf) (rom : List Byte) (a : Nat) :
    a < 4096 → memRead (memWriteBytes loadAddress (romFits rom) m) a =
      if h : 0x200 ≤ a ∧ a - 0x200 < rom.length then rom[a - 0x200] else memRead m a := by
  intro ha
  have hlen := romFits_length rom
  obtain ⟨hstored, hkept⟩ := memRead_memWriteBytes m hm loadAddress a (romFits rom)
    (by rw [hlen, memSize]; omega)
  simp only [memSize, loadAddress] at hstored hkept ⊢
  split_ifs with h
  · have hk : a - 0x200 < (romFits rom).length := by omega
    rw [hstored (a - 0x200) hk (by omega), romFits_getElem]
  · exact hkept fun k hk => by omega

/-- Settles O46: Load writes memory alone, and each address below 4096 reads as the law of the copy says. -/
theorem loadCopiesAndTruncates : Obligations.LoadCopiesAndTruncates := by
  unfold Obligations.LoadCopiesAndTruncates
  exact fun rom s hm => ⟨_, perform_load rom s, rfl, memRead_memWriteBytes_romFits hm rom⟩

end Sys2Proof.Machine

/-! ## Decoding and encoding are inverse (30_encoding.md R71 to R83) -/

namespace Sys2Proof

/-! ### Decoding an encoded instruction (R76 to R81) -/

theorem formNNN_injective (m : Nibble) : Function.Injective (formNNN m) :=
  Function.LeftInverse.injective (fieldNNN_formNNN m)

theorem decode_encode_sys {nnn : Addr} (hcls : nnn ≠ 0x0E0#12) (hret : nnn ≠ 0x0EE#12) :
    decode (encode (.sys nnn)) = .instr (.sys nnn) := by
  have hcls' : formNNN 0x0#4 nnn ≠ 0x00E0#16 := (formNNN_injective 0x0#4).ne hcls
  have hret' : formNNN 0x0#4 nnn ≠ 0x00EE#16 := (formNNN_injective 0x0#4).ne hret
  rw [encode, decode, fieldMajor_formNNN]
  show decodeFamily0 (formNNN 0x0#4 nnn) = _
  rw [decodeFamily0, if_neg hcls', if_neg hret', fieldNNN_formNNN]

/-- The forms go as the decoder does: by the major opcode, then by the last nibble or by the low byte. -/
theorem decode_encode (i : Instr) (hi : ∀ nnn, i ≠ .sys nnn) : decode (encode i) = .instr i := by
  cases i
  case cls | ret => rfl
  case sys nnn => exact absurd rfl (hi nnn)
  case jp | call | ldI | jpV0 =>
    rw [encode, decode, fieldMajor_formNNN, fieldNNN_formNNN]
    rfl
  case seImm | sneImm | ldImm | addImm | rnd =>
    rw [encode, decode, fieldMajor_formXNN, fieldX_formXNN, fieldNN_formXNN]
    rfl
  case drw =>
    rw [encode, decode, fieldMajor_formXYN, fieldX_formXYN, fieldY_formXYN, fieldN_formXYN]
    rfl
  case seReg | sneReg | ldReg | orReg | andReg | xorReg | addReg | subReg | shrReg | subnReg | shlReg =>
    rw [encode, decode, decodeFamily5, decodeFamily8, decodeFamily9, fieldMajor_formXYN, fieldX_formXYN,
      fieldY_formXYN, fieldN_formXYN]
    rfl
  case skp | sknp | ldVxDT | ldVxK | ldDTVx | ldSTVx | addI | ldF | ldB | storeRegs | loadRegs =>
    rw [encode, decode, decodeFamilyE, decodeFamilyF, fieldMajor_formXNN, fieldX_formXNN, fieldNN_formXNN]
    rfl

/-- Settles O1: well-formedness excludes the two operands of `0NNN` whose words are fixed words. -/
theorem decodeOfEncode : Obligations.DecodeOfEncode := by
  unfold Obligations.DecodeOfEncode
  rintro i ⟨hcls, hret⟩
  by_cases hsys : ∃ nnn, i = .sys nnn
  · obtain ⟨nnn, rfl⟩ := hsys
    exact decode_encode_sys (fun e => hcls (congrArg Instr.sys e)) (fun e => hret (congrArg Instr.sys e))
  · exact decode_encode i fun nnn e => hsys ⟨nnn, e⟩

/-- Settles O2: each family's instruction encodes to the word whose fields the family read. -/
theorem encodeOfDecode : Obligations.EncodeOfDecode := by
  unfold Obligations.EncodeOfDecode
  exact fun op i => wellFormed_encode_of_decode

/-- Settles O3: each pattern is the encoding of its instruction. -/
theorem everyPatternDecodes : Obligations.EveryPatternDecodes := by
  unfold Obligations.EveryPatternDecodes
  intro x y n nn nnn
  exact ⟨rfl, rfl, decode_encode_sys, decode_encode (.jp nnn) nofun, decode_encode (.call nnn) nofun,
    decode_encode (.seImm x nn) nofun, decode_encode (.sneImm x nn) nofun, decode_encode (.seReg x y) nofun,
    decode_encode (.ldImm x nn) nofun, decode_encode (.addImm x nn) nofun, decode_encode (.ldReg x y) nofun,
    decode_encode (.orReg x y) nofun, decode_encode (.andReg x y) nofun, decode_encode (.xorReg x y) nofun,
    decode_encode (.addReg x y) nofun, decode_encode (.subReg x y) nofun, decode_encode (.shrReg x y) nofun,
    decode_encode (.subnReg x y) nofun, decode_encode (.shlReg x y) nofun, decode_encode (.sneReg x y) nofun,
    decode_encode (.ldI nnn) nofun, decode_encode (.jpV0 nnn) nofun, decode_encode (.rnd x nn) nofun,
    decode_encode (.drw x y n) nofun, decode_encode (.skp x) nofun, decode_encode (.sknp x) nofun,
    decode_encode (.ldVxDT x) nofun, decode_encode (.ldVxK x) nofun, decode_encode (.ldDTVx x) nofun,
    decode_encode (.ldSTVx x) nofun, decode_encode (.addI x) nofun, decode_encode (.ldF x) nofun,
    decode_encode (.ldB x) nofun, decode_encode (.storeRegs x) nofun, decode_encode (.loadRegs x) nofun⟩

/-- Settles O6: each word is closed, so the decoder runs. -/
theorem writtenOutWordsDecode : Obligations.WrittenOutWordsDecode := by
  unfold Obligations.WrittenOutWordsDecode
  decide

/-! ### The words without a pattern (R83) -/

theorem fieldMajor_toNat (op : Word) : (fieldMajor op).toNat = op.toNat / 4096 := by
  rw [fieldMajor, BitVec.extractLsb'_toNat, Nat.shiftRight_eq_div_pow]
  omega

theorem fieldN_toNat (op : Word) : (fieldN op).toNat = op.toNat % 16 := by
  rw [fieldN, BitVec.extractLsb'_toNat]
  rfl

theorem fieldNN_toNat (op : Word) : (fieldNN op).toNat = op.toNat % 256 := by
  rw [fieldNN, BitVec.extractLsb'_toNat]
  rfl

/-- Whether the decoder answers `Unknown`. -/
def IsUnknown (d : Decoded) : Prop := ∃ w, d = .unknown w

@[simp] theorem isUnknown_instr (i : Instr) : ¬ IsUnknown (.instr i) := nofun

@[simp] theorem isUnknown_unknown (op : Word) : IsUnknown (.unknown op) := ⟨op, rfl⟩

theorem isUnknown_ite (c : Prop) [Decidable c] (i : Instr) (op : Word) :
    IsUnknown (if c then .instr i else .unknown op) ↔ ¬ c := by
  split <;> simp [*]

theorem not_isUnknown_decodeFamily0 (op : Word) : ¬ IsUnknown (decodeFamily0 op) := by
  unfold decodeFamily0
  split_ifs <;> exact isUnknown_instr _

theorem isUnknown_decodeFamily5_iff (op : Word) : IsUnknown (decodeFamily5 op) ↔ op.toNat % 16 ≠ 0 := by
  rw [← fieldN_toNat, decodeFamily5, isUnknown_ite]
  exact not_congr BitVec.toNat_inj.symm

theorem isUnknown_decodeFamily9_iff (op : Word) : IsUnknown (decodeFamily9 op) ↔ op.toNat % 16 ≠ 0 := by
  rw [← fieldN_toNat, decodeFamily9, isUnknown_ite]
  exact not_congr BitVec.toNat_inj.symm

/-- The patterns of family 8 have the last nibbles 0 to 7 and 0xE; a nibble is at most 15. -/
theorem isUnknown_decodeFamily8_iff (op : Word) :
    IsUnknown (decodeFamily8 op) ↔ op.toNat % 16 ∈ [0x8, 0x9, 0xA, 0xB, 0xC, 0xD, 0xF] := by
  have hlt := (fieldN op).isLt
  rw [← fieldN_toNat, decodeFamily8]
  split
  case h_10 =>
    simp only [isUnknown_unknown, List.mem_cons, List.not_mem_nil, true_iff, or_false, imp_false] at *
    omega
  all_goals next hn => simp [hn]

theorem isUnknown_decodeFamilyE_iff (op : Word) :
    IsUnknown (decodeFamilyE op) ↔ op.toNat % 256 ∉ [0x9E, 0xA1] := by
  rw [← fieldNN_toNat, decodeFamilyE]
  split <;> simp_all

theorem isUnknown_decodeFamilyF_iff (op : Word) :
    IsUnknown (decodeFamilyF op) ↔
      op.toNat % 256 ∉ [0x07, 0x0A, 0x15, 0x18, 0x1E, 0x29, 0x33, 0x55, 0x65] := by
  rw [← fieldNN_toNat, decodeFamilyF]
  split <;> simp_all

/-- Settles O4: by the major opcode, in the five families by the family's own condition. -/
theorem unknownWordsExactly : Obligations.UnknownWordsExactly := by
  unfold Obligations.UnknownWordsExactly
  intro op
  have hlt : op.toNat / 4096 < 16 := by omega
  show IsUnknown (decode op) ↔ _
  rw [decode, fieldMajor_toNat]
  split
  case h_1 hm => simp [hm, not_isUnknown_decodeFamily0]
  case h_6 hm => simp [hm, isUnknown_decodeFamily5_iff]
  case h_9 hm => simp [hm, isUnknown_decodeFamily8_iff]
  case h_10 hm => simp [hm, isUnknown_decodeFamily9_iff]
  case h_15 hm => simp [hm, isUnknown_decodeFamilyE_iff]
  case h_16 =>
    have hm : op.toNat / 4096 = 0xF := by simp only [imp_false] at *; omega
    simp [hm, isUnknown_decodeFamilyF_iff]
  all_goals next hm => simp [hm]

end Sys2Proof

/-! ## What an instruction can do (10_state.md R21 to R37, 20_memory.md R58) -/

namespace Sys2Proof.Machine

/-! ### The effects -/

/-- What the handler of an instruction leaves when it answers a next state: one constructor per set of
items written. The instructions that write registers only share one, so do those that write only `pc` and
those that write only `I`. -/
inductive Effect : Instr → State → State → Prop where
  | regs {i s} (v : Regs) (hv : ∀ r, ¬ mayWriteReg i r → getReg v r = readV s r) :
      Effect i s (writeRegs v s)
  | pc {i s} (a : Word) (hi : WritesPc i)
      (ha : a.toNat ≤ 0x0FFF ∨ a = s.pc ∨ a = s.pc + 2#16 ∨ a = s.pc - 2#16) : Effect i s (writePc a s)
  | index {i s} (a : Word) (hi : WritesI i) : Effect i s (writeI a s)
  | cls {s} (d : Display) : Effect .cls s (writeDisplay d s)
  | ret {s} (a : Word) (st : Stack) (hst : s.stack = a :: st) : Effect .ret s (writePc a (writeStack st s))
  | call {s} (nnn : Addr) (hroom : stackFull Config.stackMax s.stack = false) :
      Effect (.call nnn) s (writePc (nnn.setWidth 16) (writeStack (s.pc :: s.stack) s))
  | sys {s} (nnn : Addr) : Effect (.sys nnn) s (writeBadOpcode true s)
  | rnd {s} (x : Nibble) (nn b : Byte) : Effect (.rnd x nn) s (advanceDraws (writeV x b s))
  | drw {s} (x y n : Nibble) (d : Display) (f : Byte) :
      Effect (.drw x y n) s (writeDisplay d (writeFlag f s))
  | ldDTVx {s} (x : Nibble) (b : Byte) : Effect (.ldDTVx x) s (writeDelay b s)
  | ldSTVx {s} (x : Nibble) (b : Byte) : Effect (.ldSTVx x) s (writeSound b s)
  | ldB {s} (x : Nibble) (b : Byte) :
      Effect (.ldB x) s (writeMemory (memWriteBytes (dataAddr s.i 0) (decimalDigits b) s.memory) s)
  | storeRegs {s} (x : Nibble) (a : Word) : Effect (.storeRegs x) s
      (writeI a (writeMemory (memWriteBytes (dataAddr s.i 0) (firstRegs s.v (x.toNat + 1)) s.memory) s))
  | loadRegs {s} (x : Nibble) (a : Word) : Effect (.loadRegs x) s
      (writeI a (writeRegs (loadFirstRegs s.memory s.i (x.toNat + 1) s.v) s))

section
variable {i : Instr} {s t : State}

theorem ne_of_mayWriteReg {x r : Nibble} (hx : mayWriteReg i x) (hr : ¬ mayWriteReg i r) : r ≠ x := by
  rintro rfl
  exact hr hx

theorem Effect.writeV {x : Nibble} (b : Byte) (hx : mayWriteReg i x) : Effect i s (writeV x b s) :=
  .regs _ fun r hr => (readV_writeV s x r b).trans (if_neg (ne_of_mayWriteReg hx hr))

theorem Effect.resultThenFlag {x : Nibble} (a f : Byte) (hx : mayWriteReg i x) (hf : mayWriteReg i 0xF#4) :
    Effect i s (resultThenFlag x a f s) :=
  .regs _ fun r hr => (readV_resultThenFlag s x r a f).trans <|
    (if_neg (ne_of_mayWriteReg hf hr)).trans (if_neg (ne_of_mayWriteReg hx hr))

theorem Effect.flagThenResult {x : Nibble} (a f : Byte) (hx : mayWriteReg i x) (hf : mayWriteReg i 0xF#4) :
    Effect i s (flagThenResult x a f s) :=
  .regs _ fun r hr => (readV_flagThenResult s x r a f).trans <|
    (if_neg (ne_of_mayWriteReg hx hr)).trans (if_neg (ne_of_mayWriteReg hf hr))

theorem Effect.skipIf (c : Bool) (hi : WritesPc i) : Effect i s (skipIf c s) := by
  rw [skipIf_eq]
  exact .pc _ hi (by cases c <;> simp)

theorem setWidth_addr_le (nnn : Addr) : (nnn.setWidth 16).toNat ≤ 0x0FFF := by
  bv_omega

/-- The inversion of `exec`: every frame and every invariant of a step comes from these cases. -/
theorem exec_effect (h : exec i s = .next t) : Effect i s t := by
  cases i
  case ret =>
    obtain ⟨a, st, hst, rfl⟩ := exec_ret_next h
    exact .ret a st hst
  case call nnn =>
    obtain ⟨hroom, rfl⟩ := callWithin_next h
    exact .call nnn hroom
  case ldVxK x =>
    obtain ⟨-, rfl⟩ | ⟨k, -, rfl⟩ := exec_ldVxK_next h
    · exact .pc _ (by simp [WritesPc]) (by simp)
    · exact .writeV _ rfl
  case jp nnn => cases h; exact .pc _ (by simp [WritesPc]) (.inl (setWidth_addr_le nnn))
  case jpV0 nnn => cases h; exact .pc _ (by simp [WritesPc]) (.inl (Nat.le_of_lt_succ (mask12_lt _)))
  case seImm | sneImm | seReg | sneReg | skp | sknp => cases h; exact .skipIf _ (by simp [WritesPc])
  case ldImm | addImm | ldReg | orReg | andReg | xorReg | ldVxDT => cases h; exact .writeV _ rfl
  case addReg | subReg | subnReg => cases h; exact .resultThenFlag _ _ (.inl rfl) (.inr rfl)
  case shrReg | shlReg => cases h; exact .flagThenResult _ _ (.inl rfl) (.inr rfl)
  case ldI | addI | ldF => cases h; exact .index _ (by simp [WritesI])
  case cls => cases h; exact .cls _
  case sys nnn => cases h; exact .sys nnn
  case rnd => cases h; exact .rnd ..
  case drw => cases h; exact .drw ..
  case ldDTVx => cases h; exact .ldDTVx ..
  case ldSTVx => cases h; exact .ldSTVx ..
  case ldB => cases h; exact .ldB ..
  case storeRegs => cases h; exact .storeRegs ..
  case loadRegs => cases h; exact .loadRegs ..

/-! ### Who writes what: each item is kept by every effect but its writers' (R24 to R37) -/

theorem exec_keeps_i (h : exec i s = .next t) (hi : ¬ WritesI i) : t.i = s.i := by
  cases exec_effect h
  case index hw => exact absurd hw hi
  case storeRegs | loadRegs => simp [WritesI] at hi
  all_goals rfl

theorem exec_keeps_pc (h : exec i s = .next t) (hi : ¬ WritesPc i) : t.pc = s.pc := by
  cases exec_effect h
  case pc hw _ => exact absurd hw hi
  case ret | call => simp [WritesPc] at hi
  all_goals rfl

theorem exec_keeps_stack (h : exec i s = .next t) (hret : i ≠ .ret) (hcall : ∀ nnn, i ≠ .call nnn) :
    t.stack = s.stack := by
  cases exec_effect h
  case ret => exact absurd rfl hret
  case call nnn _ => exact absurd rfl (hcall nnn)
  all_goals rfl

theorem exec_keeps_display (h : exec i s = .next t) (hcls : i ≠ .cls) (hdrw : ∀ x y n, i ≠ .drw x y n) :
    t.display = s.display := by
  cases exec_effect h
  case cls => exact absurd rfl hcls
  case drw x y n _ _ => exact absurd rfl (hdrw x y n)
  all_goals rfl

theorem exec_keeps_delay (h : exec i s = .next t) (hi : ∀ x, i ≠ .ldDTVx x) : t.delay = s.delay := by
  cases exec_effect h
  case ldDTVx x _ => exact absurd rfl (hi x)
  all_goals rfl

theorem exec_keeps_sound (h : exec i s = .next t) (hi : ∀ x, i ≠ .ldSTVx x) : t.sound = s.sound := by
  cases exec_effect h
  case ldSTVx x _ => exact absurd rfl (hi x)
  all_goals rfl

theorem exec_keeps_badOpcode (h : exec i s = .next t) (hi : ∀ nnn, i ≠ .sys nnn) :
    t.badOpcode = s.badOpcode := by
  cases exec_effect h
  case sys nnn => exact absurd rfl (hi nnn)
  all_goals rfl

theorem exec_keeps_keypad (h : exec i s = .next t) : t.keys = s.keys ∧ t.currentKey = s.currentKey := by
  cases exec_effect h
  all_goals exact ⟨rfl, rfl⟩

theorem exec_keeps_readV (h : exec i s = .next t) {r : Nibble} (hr : ¬ mayWriteReg i r) :
    readV t r = readV s r := by
  cases exec_effect h
  case regs v hv => exact hv r hr
  case rnd x nn b => exact (readV_writeV s x r b).trans (if_neg hr)
  case drw f => exact (readV_writeFlag s r f).trans (if_neg hr)
  case loadRegs x a =>
    have hlt : ¬ r.toNat < x.toNat + 1 := fun hlt => hr (Nat.le_of_lt_succ hlt)
    exact (getReg_loadFirstRegs s.memory s.i (x.toNat + 1) x.isLt s.v r).trans (if_neg hlt)
  all_goals rfl

/-- Every handler's memory is a sequence of stores to the old one, of none in most. -/
theorem exec_memory (h : exec i s = .next t) : ∃ a bs, t.memory = memWriteBytes a bs s.memory := by
  cases exec_effect h
  case ldB | storeRegs => exact ⟨_, _, rfl⟩
  all_goals exact ⟨0, [], rfl⟩

theorem exec_keeps_memRead (hm : s.memory.wf) (h : exec i s = .next t) {a : Nat} (ha : ¬ storesTo i s a) :
    memRead t.memory a = memRead s.memory a := by
  cases exec_effect h
  case ldB x b =>
    obtain ⟨-, hkept⟩ := memRead_memWriteBytes s.memory hm (dataAddr s.i 0) a (decimalDigits b) (by
      rw [decimalDigits_length]; decide)
    exact hkept fun k hk e => ha ⟨k, hk, e⟩
  case storeRegs x _ =>
    exact memRead_memWriteBytes_firstRegs_of_outside hm s.v s.i.toNat a x fun k hk e => ha ⟨k, hk, e⟩
  all_goals rfl

end

/-- Settles O54: by the instruction's effect. -/
theorem registerFrame : Obligations.RegisterFrame := by
  unfold Obligations.RegisterFrame
  exact fun i s t h r => exec_keeps_readV h

/-- Settles O55: by the instruction's effect. -/
theorem memoryFrame : Obligations.MemoryFrame := by
  unfold Obligations.MemoryFrame
  exact fun i s t hm h a => exec_keeps_memRead hm h

/-- Settles O56: each item by its own frame lemma. -/
theorem specialRegisterFrame : Obligations.SpecialRegisterFrame := by
  unfold Obligations.SpecialRegisterFrame
  exact fun i s t h => ⟨exec_keeps_i h, exec_keeps_pc h, exec_keeps_stack h, exec_keeps_display h,
    exec_keeps_delay h, exec_keeps_sound h, exec_keeps_badOpcode h, exec_keeps_keypad h⟩

/-! ### The faults of handlers (60_exceptions.md R220, R229) -/

theorem exec_call_full (s : State) (nnn : Addr) {n : { n : Nat // 0 < n }}
    (hmax : Config.stackMax = some n) (hlen : s.stack.length = n.val) :
    exec (.call nnn) s = .fault .stackOverflow :=
  callWithin_full s nnn ((stackFull_iff _ _).2 ⟨n, hmax, hlen⟩)

/-- Settles O53: return by the stack, call by the limit, the key wait by whether a key is current; every
other handler answers a next state outright. -/
theorem onlyStackFaultsFromHandlers : Obligations.OnlyStackFaultsFromHandlers := by
  unfold Obligations.OnlyStackFaultsFromHandlers
  refine fun i s => ⟨?underflow, ?overflow, fun hret hcall => ?next⟩
  case underflow =>
    rintro rfl hempty
    exact exec_ret_nil s hempty
  case overflow =>
    rintro nnn n rfl hmax hlen
    exact exec_call_full s nnn hmax hlen
  case next =>
    cases i
    case ret =>
      obtain ⟨a, st, hst⟩ := List.exists_cons_of_ne_nil fun hempty => hret ⟨rfl, hempty⟩
      exact ⟨_, exec_ret_cons s a st hst⟩
    case call nnn =>
      obtain ⟨hbelow, -⟩ := callUnderAnyLimit.1 Config.stackMax nnn s
      exact ⟨_, hbelow fun n hmax hlen => hcall ⟨nnn, n, rfl, hmax, hlen⟩⟩
    case ldVxK x =>
      cases hkey : s.currentKey with
      | none => exact ⟨_, exec_ldVxK_none s x hkey⟩
      | some k => exact ⟨_, exec_ldVxK_some s x k hkey⟩
    all_goals exact ⟨_, rfl⟩

/-! ### Flags (10_state.md R22, R23) -/

/-- The two values of a flag. -/
def IsFlag (f : Byte) : Prop := f = 0#8 ∨ f = 1#8

theorem isFlag_flagByte (b : Bool) : IsFlag (flagByte b) := by
  cases b
  · exact .inl rfl
  · exact .inr rfl

theorem isFlag_lowBitOf (b : Byte) : IsFlag (lowBitOf b) := by
  rw [lowBitOf_eq_ofNat_mod]
  obtain h | h := Nat.mod_two_eq_zero_or_one b.toNat <;> rw [h]
  · exact .inl rfl
  · exact .inr rfl

theorem isFlag_highBitOf (b : Byte) : IsFlag (highBitOf b) := by
  rw [highBitOf_eq_lowBitOf_ushiftRight]
  exact isFlag_lowBitOf _

theorem isFlag_readV_resultThenFlag {f : Byte} (hf : IsFlag f) (s : State) (x : Nibble) (a : Byte) :
    IsFlag (readV (resultThenFlag x a f s) 0xF#4) := by
  rwa [readV_resultThenFlag, if_pos rfl]

theorem isFlag_readV_flagThenResult {f : Byte} (hf : IsFlag f) {x : Nibble} (hx : x ≠ 0xF#4) (s : State)
    (a : Byte) : IsFlag (readV (flagThenResult x a f s) 0xF#4) := by
  rwa [readV_flagThenResult, if_neg hx.symm, if_pos rfl]

/-- Settles O57: sums and differences write the flag last; a shift's result does not overwrite it when its
destination is another register. -/
theorem flagsAreZeroOrOne : Obligations.FlagsAreZeroOrOne := by
  unfold Obligations.FlagsAreZeroOrOne
  intro i s t hi hshift h
  show IsFlag (readV t 0xF#4)
  obtain ⟨x, y, rfl | rfl | rfl | rfl | rfl⟩ | ⟨x, y, n, rfl⟩ := hi <;> cases h
  · exact isFlag_readV_resultThenFlag (isFlag_flagByte _) s x _
  · exact isFlag_readV_resultThenFlag (isFlag_flagByte _) s x _
  · exact isFlag_readV_flagThenResult (isFlag_lowBitOf _) (fun e => (hshift y).1 (by rw [e])) s _
  · exact isFlag_readV_resultThenFlag (isFlag_flagByte _) s x _
  · exact isFlag_readV_flagThenResult (isFlag_highBitOf _) (fun e => (hshift y).2 (by rw [e])) s _
  · rw [readV_writeDisplay, readV_writeFlag, if_pos rfl]
    exact isFlag_flagByte _

/-! ### `bad_opcode` after an Execute (R37) -/

/-- Settles O58: Execute clears the flag first; among the instructions only `0NNN` writes it, and `Unknown`'s
handler sets it. -/
theorem badOpcodeTellsUnknownOrSys : Obligations.BadOpcodeTellsUnknownOrSys := by
  unfold Obligations.BadOpcodeTellsUnknownOrSys
  intro op s t h
  obtain ⟨i, hdecode, hexec⟩ | ⟨w, hdecode, rfl⟩ := execute_next h
  · by_cases hsys : ∃ nnn, i = .sys nnn
    · obtain ⟨nnn, rfl⟩ := hsys
      cases hexec
      exact iff_of_true rfl (.inr ⟨nnn, hdecode⟩)
    · have hcleared : t.badOpcode = false := exec_keeps_badOpcode hexec fun nnn e => hsys ⟨nnn, e⟩
      simp only [hcleared, hdecode, Bool.false_eq_true, reduceCtorEq, exists_false, false_or, false_iff,
        Decoded.instr.injEq]
      exact hsys
  · exact iff_of_true rfl (.inl ⟨w, hdecode⟩)

end Sys2Proof.Machine

/-! ## The invariants (10_state.md R42) -/

namespace Sys2Proof.Machine

/-! ### What the commands Execute, Step and Fetch leave -/

/-- The command Execute leaves the handler's next state, or at a fault the state with `bad_opcode` cleared
(R103, R222). -/
theorem perform_execute_leaves (op : Word) (s : State) :
    execute op s = .next (perform (.execute op) s).2 ∨
      (perform (.execute op) s).2 = writeBadOpcode false s := by
  show execute op s = .next (finish _ (execute op s)).2 ∨ (finish _ (execute op s)).2 = _
  cases execute op s with
  | next t => exact .inl rfl
  | fault f => exact .inr rfl
  | refused r => exact .inr rfl

theorem perform_step_out {s : State} (h : 0x0FFE < s.pc.toNat) :
    perform .step s = (.fault (.fetchOutOfRange s.pc), s) :=
  perform_step_of_fetch_fault (fetch_out s h)

theorem perform_fetch_in {s : State} (h : s.pc.toNat ≤ 0x0FFE) :
    perform .fetch s = (.word (fetchedWord s), writePc (s.pc + 2#16) s) := by
  show performFetch s = _
  rw [performFetch, fetch_in s h]
  rfl

theorem perform_fetch_out {s : State} (h : 0x0FFE < s.pc.toNat) :
    perform .fetch s = (.fault (.fetchOutOfRange s.pc), s) :=
  perform_fetch_of_fault (fetch_out s h)

/-! ### At reset -/

/-- Settles O49: reset memory lists no cell, no key is current and the stack is empty. -/
theorem resetMeetsTheInvariants : Obligations.ResetMeetsTheInvariants := by
  unfold Obligations.ResetMeetsTheInvariants
  exact ⟨⟨wf_reset, by decide, nofun, fun n _ => Nat.zero_le n.val⟩, by decide, nofun⟩

/-! ### The canonical memory, the index, the current key and the depth (R42) -/

section
variable {i : Instr} {s t : State}

theorem exec_index_le (hi : s.i.toNat ≤ 0x0FFF) (h : exec i s = .next t) : t.i.toNat ≤ 0x0FFF := by
  cases exec_effect h
  case index | storeRegs | loadRegs => exact Nat.le_of_lt_succ (mask12_lt _)
  all_goals exact hi

/-- A call pushes only below the limit, so the depth stays within it (R31, R122). -/
theorem exec_depth_le (hdepth : ∀ n, Config.stackMax = some n → s.stack.length ≤ n.val)
    (h : exec i s = .next t) : ∀ n, Config.stackMax = some n → t.stack.length ≤ n.val := by
  cases exec_effect h
  case ret a st hst =>
    intro n hmax
    have hle := hdepth n hmax
    rw [hst, List.length_cons] at hle
    exact Nat.le_of_succ_le hle
  case call nnn hroom =>
    intro n hmax
    exact Nat.lt_of_le_of_ne (hdepth n hmax) ((stackFull_eq_false_iff _ _).1 hroom n hmax)
  all_goals exact hdepth

theorem coreInv_writePc (a : Word) (hs : CoreInv s) : CoreInv (writePc a s) :=
  ⟨hs.memory, hs.index, hs.held, hs.depth⟩

theorem coreInv_writeBadOpcode (b : Bool) (hs : CoreInv s) : CoreInv (writeBadOpcode b s) :=
  ⟨hs.memory, hs.index, hs.held, hs.depth⟩

theorem coreInv_writeMemoryBytes (a : Nat) (bs : List Byte) (hs : CoreInv s) :
    CoreInv (writeMemory (memWriteBytes a bs s.memory) s) :=
  ⟨wf_memWriteBytes a bs hs.memory, hs.index, hs.held, hs.depth⟩

theorem coreInv_exec (hs : CoreInv s) (h : exec i s = .next t) : CoreInv t := by
  obtain ⟨a, bs, hmem⟩ := exec_memory h
  obtain ⟨hkeys, hcurrent⟩ := exec_keeps_keypad h
  refine ⟨?memory, exec_index_le hs.index h, ?held, exec_depth_le hs.depth h⟩
  case memory =>
    rw [hmem]
    exact wf_memWriteBytes a bs hs.memory
  case held =>
    rw [hkeys, hcurrent]
    exact hs.held

theorem coreInv_execute {op : Word} (hs : CoreInv s) (h : execute op s = .next t) : CoreInv t := by
  obtain ⟨i, -, hexec⟩ | ⟨w, -, rfl⟩ := execute_next h
  · exact coreInv_exec (coreInv_writeBadOpcode false hs) hexec
  · exact coreInv_writeBadOpcode true hs

end

/-- Settles O50: a step is Fetch's advance of `pc`, the cleared flag and one handler. -/
theorem stepKeepsTheInvariants : Obligations.StepKeepsTheInvariants := by
  unfold Obligations.StepKeepsTheInvariants
  intro s t hs h
  obtain ⟨-, hexecute⟩ := step_next h
  exact coreInv_execute (coreInv_writePc _ hs) hexecute

theorem coreInv_perform_execute (op : Word) {s : State} (hs : CoreInv s) :
    CoreInv (perform (.execute op) s).2 := by
  obtain hnext | hfault := perform_execute_leaves op s
  · exact coreInv_execute hs hnext
  · rw [hfault]
    exact coreInv_writeBadOpcode false hs

theorem coreInv_resetMachine (s : State) : CoreInv (resetMachine s) :=
  have ⟨hmemory, hindex, hheld, hdepth⟩ := resetMeetsTheInvariants.1
  ⟨hmemory, hindex, hheld, hdepth⟩

/-- The key made current is the one marked down (R240). -/
theorem coreInv_keyDown (k : Nibble) {s : State} (hs : CoreInv s) : CoreInv (keyDown k s) := by
  refine ⟨hs.memory, hs.index, fun j hj => ?_, hs.depth⟩
  obtain rfl : k = j := Option.some.inj hj
  exact (getKey_setKey s.keys k k true).trans (if_pos rfl)

theorem coreInv_keyUp (k : Nibble) {s : State} (hs : CoreInv s) : CoreInv (keyUp k s) :=
  ⟨hs.memory, hs.index, nofun, hs.depth⟩

theorem coreInv_perform (c : Command) {s : State} (hs : CoreInv s) : CoreInv (perform c s).2 := by
  cases c
  case reset => exact coreInv_resetMachine s
  case load rom => exact coreInv_writeMemoryBytes _ _ hs
  case fetch =>
    by_cases hpc : s.pc.toNat ≤ 0x0FFE
    · rw [perform_fetch_in hpc]
      exact coreInv_writePc _ hs
    · rwa [perform_fetch_out (Nat.not_le.1 hpc)]
  case execute op => exact coreInv_perform_execute op hs
  case step =>
    by_cases hpc : s.pc.toNat ≤ 0x0FFE
    · rw [perform_step_in hpc]
      exact coreInv_perform_execute _ (coreInv_writePc _ hs)
    · rwa [perform_step_out (Nat.not_le.1 hpc)]
  case decDelay | decSound => exact ⟨hs.memory, hs.index, hs.held, hs.depth⟩
  case keyDown k => exact coreInv_keyDown k hs
  case keyUp k => exact coreInv_keyUp k hs
  all_goals exact hs

/-- Settles O51: by induction on the commands. -/
theorem commandsKeepTheInvariants : Obligations.CommandsKeepTheInvariants := by
  unfold Obligations.CommandsKeepTheInvariants
  intro cs
  induction cs with
  | nil => exact fun s hs => hs
  | cons c cs ih => exact fun s hs => ih _ (coreInv_perform c hs)

/-! ### The bounds of `pc` and of the stack's entries (R42) -/

/-- Within a Step a handler starts with `pc` from 2 to 0x1000, so neither a skip nor the key wait wraps, and
a call pushes at most 0x1000. -/
theorem stepInv_exec {i : Instr} {s t : State} (hlo : 2 ≤ s.pc.toNat) (hhi : s.pc.toNat ≤ 0x1000)
    (hs : StepInv s) (h : exec i s = .next t) : StepInv t := by
  cases exec_effect h
  case pc a _ ha =>
    refine ⟨?_, hs.stack⟩
    rw [writePc_pc]
    obtain ha | rfl | rfl | rfl := ha <;> bv_omega
  case ret a st hst =>
    obtain ⟨ha, hrest⟩ := List.forall_mem_cons.1 (hst ▸ hs.stack)
    exact ⟨ha.trans (by decide), hrest⟩
  case call nnn _ =>
    exact ⟨(setWidth_addr_le nnn).trans (by decide), List.forall_mem_cons.2 ⟨hhi, hs.stack⟩⟩
  all_goals exact ⟨hs.pc, hs.stack⟩

/-- Settles O52: Fetch advances `pc` from at most 0x0FFE, and the handler keeps the bounds from there. -/
theorem stepKeepsThePcBounds : Obligations.StepKeepsThePcBounds := by
  unfold Obligations.StepKeepsThePcBounds
  intro s t hs h
  obtain ⟨hpc, hexecute⟩ := step_next h
  have hadvanced : (s.pc + 2#16).toNat = s.pc.toNat + 2 := by bv_omega
  have hle : (s.pc + 2#16).toNat ≤ 0x1000 := by omega
  have hfetched : ∀ b, StepInv (writeBadOpcode b (writePc (s.pc + 2#16) s)) :=
    fun b => ⟨hle.trans (by decide), hs.stack⟩
  obtain ⟨i, -, hexec⟩ | ⟨w, -, rfl⟩ := execute_next hexecute
  · exact stepInv_exec (hadvanced ▸ Nat.le_add_left 2 _) hle (hfetched false) hexec
  · exact hfetched true

end Sys2Proof.Machine

/-! ## The keypad is the host's (10_state.md R35, R36) -/

namespace Sys2Proof.Machine

theorem execute_keeps_keypad {op : Word} {s t : State} (h : execute op s = .next t) :
    t.keys = s.keys ∧ t.currentKey = s.currentKey := by
  obtain ⟨i, -, hexec⟩ | ⟨w, -, rfl⟩ := execute_next h
  · simpa using exec_keeps_keypad hexec
  · exact ⟨rfl, rfl⟩

theorem perform_execute_keeps_keypad (op : Word) (s : State) :
    (perform (.execute op) s).2.keys = s.keys ∧ (perform (.execute op) s).2.currentKey = s.currentKey := by
  obtain hnext | hfault := perform_execute_leaves op s
  · exact execute_keeps_keypad hnext
  · rw [hfault]
    exact ⟨rfl, rfl⟩

/-- Settles O59: Execute, and Step where it fetches, by the frame of the handlers; no other command of the
rest writes either item. -/
theorem onlyKeyCommandsWriteTheKeypad : Obligations.OnlyKeyCommandsWriteTheKeypad := by
  unfold Obligations.OnlyKeyCommandsWriteTheKeypad
  intro c s hreset hkey
  cases c
  case reset => exact absurd rfl hreset
  case keyDown k => exact absurd rfl (hkey k).1
  case keyUp k => exact absurd rfl (hkey k).2
  case fetch =>
    by_cases hpc : s.pc.toNat ≤ 0x0FFE
    · rw [perform_fetch_in hpc]
      exact ⟨rfl, rfl⟩
    · rw [perform_fetch_out (Nat.not_le.1 hpc)]
      exact ⟨rfl, rfl⟩
  case execute op => exact perform_execute_keeps_keypad op s
  case step =>
    by_cases hpc : s.pc.toNat ≤ 0x0FFE
    · rw [perform_step_in hpc]
      exact perform_execute_keeps_keypad _ (writePc (s.pc + 2#16) s)
    · rw [perform_step_out (Nat.not_le.1 hpc)]
      exact ⟨rfl, rfl⟩
  all_goals exact ⟨rfl, rfl⟩

end Sys2Proof.Machine

/-! ## What a program cannot observe (10_state.md R34, R37) -/

namespace Sys2Proof.Machine

theorem exists_writes_of_unobserved_eq {s s' : State} (h : unobserved s = unobserved s') :
    ∃ a b, s' = writeSound a (writeBadOpcode b s) :=
  ⟨s'.sound, s'.badOpcode,
    congrArg (writeSound s'.sound ∘ writeBadOpcode s'.badOpcode) (a₁ := unobserved s')
      (a₂ := unobserved s) h.symm⟩

theorem sameOutcome_of_eq {q q' r r' : Result} (hq : q = r) (hq' : q' = r') (h : SameOutcome r r') :
    SameOutcome q q' := by
  rwa [hq, hq']

theorem unobserved_skipIf (c : Bool) {s s' : State} (h : unobserved s = unobserved s') :
    unobserved (skipIf c s) = unobserved (skipIf c s') := by
  obtain ⟨a, b, rfl⟩ := exists_writes_of_unobserved_eq h
  cases c <;> rfl

/-- No handler reads either item: what a branch tests is the same in both states, and so is what is written. -/
theorem sameOutcome_exec (i : Instr) {s s' : State} (h : unobserved s = unobserved s') :
    SameOutcome (exec i s) (exec i s') := by
  obtain ⟨a, b, rfl⟩ := exists_writes_of_unobserved_eq h
  cases i
  case ret =>
    cases hst : s.stack with
    | nil => exact sameOutcome_of_eq (exec_ret_nil _ hst) (exec_ret_nil _ hst) rfl
    | cons a st => exact sameOutcome_of_eq (exec_ret_cons _ a st hst) (exec_ret_cons _ a st hst) rfl
  case call nnn =>
    cases hfull : stackFull Config.stackMax s.stack with
    | true => exact sameOutcome_of_eq (callWithin_full _ nnn hfull) (callWithin_full _ nnn hfull) rfl
    | false => exact sameOutcome_of_eq (callWithin_room _ nnn hfull) (callWithin_room _ nnn hfull) rfl
  case ldVxK x =>
    cases hkey : s.currentKey with
    | none => exact sameOutcome_of_eq (exec_ldVxK_none _ x hkey) (exec_ldVxK_none _ x hkey) rfl
    | some k => exact sameOutcome_of_eq (exec_ldVxK_some _ x k hkey) (exec_ldVxK_some _ x k hkey) rfl
  case seImm | sneImm | seReg | sneReg | skp | sknp => exact unobserved_skipIf _ h
  all_goals rfl

theorem sameOutcome_execute (op : Word) {s s' : State} (h : unobserved s = unobserved s') :
    SameOutcome (execute op s) (execute op s') := by
  cases hdecode : decode op with
  | instr i =>
    rw [execute_instr s hdecode, execute_instr s' hdecode]
    exact sameOutcome_exec i h
  | unknown w =>
    rw [execute_unknown s hdecode, execute_unknown s' hdecode]
    exact h

/-- Settles O60: both states fetch the same word, or both fault at the same `pc`. -/
theorem soundAndBadOpcodeAreUnobservable : Obligations.SoundAndBadOpcodeAreUnobservable := by
  unfold Obligations.SoundAndBadOpcodeAreUnobservable
  intro s s' h
  obtain ⟨a, b, rfl⟩ := exists_writes_of_unobserved_eq h
  by_cases hout : 0x0FFE < s.pc.toNat
  · exact sameOutcome_of_eq (step_out s hout) (step_out _ hout) rfl
  · have hin : s.pc.toNat ≤ 0x0FFE := Nat.not_lt.1 hout
    exact sameOutcome_of_eq (step_in s hin) (step_in _ hin) (sameOutcome_execute _ rfl)

end Sys2Proof.Machine

/-! ## Steps and stored opcodes (40_execution_cycle.md R107, R109, 20_memory.md R65) -/

namespace Sys2Proof.Machine

/-- A Step in range whose word decodes to an instruction runs its handler (R107, R109). -/
theorem step_of_decode {s : State} {i : Instr} (hpc : s.pc.toNat ≤ 0x0FFE)
    (hdecode : decode (fetchedWord s) = .instr i) : step s = exec i (handlerState s) :=
  (step_in s hpc).trans (execute_instr _ hdecode)

/-- Settles O9: the two bytes at `pc` are the fetched word. -/
theorem stepRunsDecodedInstruction : Obligations.StepRunsDecodedInstruction := by
  unfold Obligations.StepRunsDecodedInstruction
  exact fun s i hpc hdecode => step_of_decode hpc hdecode

/-- The two bytes are stored at different addresses modulo 4096, so the second store keeps the first. -/
theorem memReadOpcode_memWriteOpcode {m : Memory} (hm : m.wf) (a : Nat) (op : Word) :
    memReadOpcode (memWriteOpcode a op m) a = op := by
  have hread : ∀ a', memRead (memWriteBytes a [highByte op, lowByte op] m) a' = _ := fun a' =>
    (memRead_memWrite _ (wf_memWrite a _ hm) (a + 1) a' _).trans
      (congrArg _ (memRead_memWrite m hm a a' _))
  have hne : ¬ a % memSize = (a + 1) % memSize := by
    rw [memSize]
    omega
  rw [memReadOpcode, memWriteOpcode, hread, hread, if_neg hne, if_pos rfl, if_pos rfl, opcodeOfBytes_bytes]

/-- Settles O14: Fetch reads back the stored opcode, and the store moves no `pc`. -/
theorem storedOpcodeIsExecutedNext : Obligations.StoredOpcodeIsExecutedNext := by
  unfold Obligations.StoredOpcodeIsExecutedNext
  intro s op hm hpc
  have hfetched : fetchedWord (placeOpcode op s) = op := memReadOpcode_memWriteOpcode hm s.pc.toNat op
  rw [step_in (placeOpcode op s) hpc]
  exact congrArg (execute · _) hfetched

end Sys2Proof.Machine

/-! ## Calls, returns and a jump to itself (41_control_flow.md R120 to R122) -/

namespace Sys2Proof.Machine

/-! ### A call at the limit (R122, R226) -/

theorem perform_execute_call_full (s : State) (nnn : Addr) {n : { n : Nat // 0 < n }}
    (hmax : Config.stackMax = some n) (hlen : s.stack.length = n.val) :
    perform (.execute (0x2#4 ++ nnn)) s = (.fault .stackOverflow, writeBadOpcode false s) :=
  have hdecode : decode (0x2#4 ++ nnn) = .instr (.call nnn) := decode_encode (.call nnn) nofun
  perform_execute_of_fault ((execute_instr s hdecode).trans (exec_call_full _ nnn hmax hlen))

/-- Settles O18: below the limit by the law of any limit; at it by the fault, whose stack neither clearing
`bad_opcode` nor Fetch touches. -/
theorem callPushesAndJumps : Obligations.CallPushesAndJumps := by
  unfold Obligations.CallPushesAndJumps
  refine ⟨fun nnn s => (callUnderAnyLimit.1 Config.stackMax nnn s).1, fun nnn s n hmax hlen => ?_⟩
  refine ⟨exec_call_full s nnn hmax hlen, perform_execute_call_full s nnn hmax hlen, fun hpc hfetched => ?_⟩
  rw [perform_step_in hpc, hfetched]
  exact perform_execute_call_full _ nnn hmax hlen

/-! ### Nested calls (R120, R122) -/

theorem execAll_cons_of_next {i : Instr} {is : List Instr} {s t : State} (h : exec i s = .next t) :
    execAll (i :: is) s = execAll is t := by
  rw [execAll, h]

theorem execAll_cons_next {i : Instr} {is : List Instr} {s u : State} (h : execAll (i :: is) s = .next u) :
    ∃ t, exec i s = .next t ∧ execAll is t = .next u := by
  rw [execAll] at h
  cases hexec : exec i s with
  | next t => rw [hexec] at h; exact ⟨t, rfl, h⟩
  | fault f => rw [hexec] at h; cases h
  | refused r => rw [hexec] at h; cases h

theorem execAll_append_of_next {is js : List Instr} {s t : State} (h : execAll is s = .next t) :
    execAll (is ++ js) s = execAll js t := by
  induction is generalizing s with
  | nil => cases h; rfl
  | cons i is ih =>
    obtain ⟨u, hexec, hrest⟩ := execAll_cons_next h
    exact (execAll_cons_of_next hexec).trans (ih hrest)

/-- A return undoes the call just made. -/
theorem exec_ret_of_exec_call {nnn : Addr} {s t : State} (h : exec (.call nnn) s = .next t) :
    exec .ret t = .next s := by
  obtain ⟨-, rfl⟩ := callWithin_next h
  exact exec_ret_cons _ s.pc s.stack rfl

/-- Settles O19: by induction on the calls. The returns of the later calls restore the state after the
first one, and the last return undoes it. -/
theorem nestedCallsReturnInOrder : Obligations.NestedCallsReturnInOrder := by
  unfold Obligations.NestedCallsReturnInOrder
  intro targets
  induction targets with
  | nil =>
    rintro s t ⟨⟩
    rfl
  | cons nnn targets ih =>
    intro s t h
    obtain ⟨u, hcall, hrest⟩ := execAll_cons_next h
    rw [List.length_cons, List.replicate_succ', execAll_append_of_next (ih u t hrest),
      execAll_cons_of_next (exec_ret_of_exec_call hcall)]
    rfl

/-! ### A jump to itself (R121, 70_reset_and_hazards.md R276) -/

/-- A `pc` that an instruction can be fetched from fits in the 12-bit field. -/
theorem setWidth_setWidth_pc {pc : Word} (h : pc.toNat ≤ 0x0FFE) : (pc.setWidth 12).setWidth 16 = pc := by
  bv_omega

theorem or_pc_eq_encode_jp {pc : Word} (h : pc.toNat ≤ 0x0FFE) :
    0x1000#16 ||| pc = encode (.jp (pc.setWidth 12)) := by
  have happend : encode (.jp (pc.setWidth 12)) = (0x1#4).setWidth 16 <<< 12 ||| (pc.setWidth 12).setWidth 16 :=
    (BitVec.setWidth_eq _).symm.trans BitVec.setWidth_append_eq_shiftLeft_setWidth_or
  rw [happend, setWidth_setWidth_pc h]
  rfl

/-- Settles O22: the word at `pc` is the jump to `pc`, so the handler takes back Fetch's advance. -/
theorem jumpToSelfChangesNothing : Obligations.JumpToSelfChangesNothing := by
  unfold Obligations.JumpToSelfChangesNothing
  rintro s ⟨hpc, hfetched⟩
  have hdecode : decode (fetchedWord s) = .instr (.jp (s.pc.setWidth 12)) := by
    rw [hfetched, or_pc_eq_encode_jp hpc]
    exact decode_encode _ nofun
  rw [step_of_decode hpc hdecode, exec_jp, setWidth_setWidth_pc hpc]
  rfl

end Sys2Proof.Machine

/-! ## Random bytes, transfers, draws and the key wait (R160, R174, R175, R191, R203) -/

namespace Sys2Proof.Machine

/-- Settles O30: one register is written and one byte drawn, whatever the byte. -/
theorem randomIsMasked : Obligations.RandomIsMasked := by
  unfold Obligations.RandomIsMasked
  exact fun s x nn => ⟨⟨_, exec_rnd s x nn, rfl, fun r => readV_writeV s x r _⟩,
    fun b => ⟨_, rfl, fun r => readV_writeV s x r _⟩⟩

/-- Settles O36: the store leaves `V[r]` at `I + r`, where the load reads it (43_index_memory.md R174, R175). -/
theorem storeThenLoadRestores : Obligations.StoreThenLoadRestores := by
  unfold Obligations.StoreThenLoadRestores
  intro s x t v hm hstore
  obtain ⟨t', hstore', -, -, hstored, -⟩ := storeRegistersAndAdvance s x hm
  obtain rfl : t' = t := Host.Outcome.next.inj (hstore'.symm.trans hstore)
  obtain ⟨u, hload, -, -, hloaded⟩ := loadRegistersAndAdvance { t' with i := s.i, v := v } x
  refine ⟨u, hload, fun r hr => ?_⟩
  rw [hloaded, if_pos hr]
  exact hstored r hr

/-! ### Two draws (44_display.md R191, R192) -/

section
variable {s t : State} {x y n : Nibble} {cx cy : Nat}

theorem flagByte_eq_one_iff (b : Bool) : flagByte b = 1#8 ↔ b = true := by
  cases b <;> decide

theorem drw_flips (h : exec (.drw x y n) s = .next t) (hc : cx < 64 ∧ cy < 32)
    (hset : spriteHas s x y n cx cy) : getCell t.display cx cy hc = !getCell s.display cx cy hc := by
  cases h
  exact getCell_drawn_of_spriteHas s x y n hc hset

theorem drw_keeps (h : exec (.drw x y n) s = .next t) (hc : cx < 64 ∧ cy < 32)
    (hclear : ¬ spriteHas s x y n cx cy) : getCell t.display cx cy hc = getCell s.display cx cy hc := by
  cases h
  exact getCell_drawn_of_not_spriteHas s x y n hc hclear

theorem drw_flag_iff (h : exec (.drw x y n) s = .next t) :
    readV t 0xF#4 = 1#8 ↔ ∃ cx cy hc, getCell s.display cx cy hc = true ∧ spriteHas s x y n cx cy := by
  cases h
  rw [readV_writeDisplay, readV_writeFlag, if_pos rfl, flagByte_eq_one_iff]
  exact drawn_collision_iff s x y n

/-- A draw neither of whose coordinates is `VF` leaves the sprite where it was. -/
theorem spriteHas_of_drw (hx : x ≠ 0xF#4) (hy : y ≠ 0xF#4) (h : exec (.drw x y n) s = .next t) :
    spriteHas t x y n cx cy ↔ spriteHas s x y n cx cy := by
  have hvx : readV t x = readV s x := exec_keeps_readV h hx
  have hvy : readV t y = readV s y := exec_keeps_readV h hy
  have hi : t.i = s.i := exec_keeps_i h (by simp [WritesI])
  have hmemory : t.memory = s.memory := by cases h; rfl
  rw [spriteHas, hvx, hvy, hi, hmemory]
  rfl

end

/-- Settles O39: the second draw flips back each cell that the first flipped, and collides on those that were
dark before it. -/
theorem drawTwiceRestoresTheDisplay : Obligations.DrawTwiceRestoresTheDisplay := by
  unfold Obligations.DrawTwiceRestoresTheDisplay
  intro s x y n t u hx hy ht hu
  have hflag : readV u 0xF#4 = 1#8 ↔
      ∃ cx cy hc, getCell s.display cx cy hc = false ∧ spriteHas s x y n cx cy := by
    rw [drw_flag_iff hu]
    refine exists₃_congr fun cx cy hc => ?_
    rw [spriteHas_of_drw hx hy ht]
    exact and_congr_left fun hset => by rw [drw_flips ht hc hset, Bool.not_eq_true']
  refine ⟨display_ext fun cx cy hc => ?display, hflag, fun hdark => hflag.trans ⟨?lit, ?collides⟩⟩
  case display =>
    by_cases hset : spriteHas s x y n cx cy
    · rw [drw_flips hu hc ((spriteHas_of_drw hx hy ht).2 hset), drw_flips ht hc hset, Bool.not_not]
    · rw [drw_keeps hu hc (mt (spriteHas_of_drw hx hy ht).1 hset), drw_keeps ht hc hset]
  case lit => exact fun ⟨cx, cy, hc, _, hset⟩ => ⟨cx, cy, hc.1, hc.2, hset⟩
  case collides => exact fun ⟨cx, cy, hx, hy, hset⟩ => ⟨cx, cy, ⟨hx, hy⟩, hdark cx cy _ hset, hset⟩

/-! ### Waiting for a key (45_keypad_timer_instructions.md R203) -/

/-- Settles O42: the key wait takes back Fetch's advance of `pc`. -/
theorem waitingStepStutters : Obligations.WaitingStepStutters := by
  unfold Obligations.WaitingStepStutters
  rintro s ⟨hpc, hnone, x, hdecode⟩
  have hback : (handlerState s).pc - 2#16 = s.pc := BitVec.add_sub_cancel s.pc 2#16
  rw [step_of_decode hpc hdecode, exec_ldVxK_none (handlerState s) x hnone, hback]
  rfl

end Sys2Proof.Machine

/-! ## Introspection (60_exceptions.md R243, R244) -/

namespace Sys2Proof.Machine

theorem peekWith_eq (sentinel a : Word) (s : State) :
    peekWith sentinel a s =
      if a.toNat ≤ 0x0FFE then (memRead s.memory a.toNat).setWidth 16 <<< 8 |||
        (memRead s.memory (a.toNat + 1)).setWidth 16 else sentinel := by
  rw [← opcodeOfBytes_eq_shiftLeft_or]
  exact (if_congr Nat.not_le.symm rfl rfl).trans (ite_not ..)

/-- Settles O48: each accessor replies with its item and the state itself; Peek by whether both bytes are in
memory. -/
theorem introspectionOnlyReads : Obligations.IntrospectionOnlyReads := by
  unfold Obligations.IntrospectionOnlyReads
  refine fun s => ⟨rfl, rfl, fun x => rfl, rfl, rfl, rfl, rfl, rfl, fun a => rfl, fun a => ?_⟩
  rw [← peekWith_eq]
  rfl

end Sys2Proof.Machine
